-- ==== Sys2Proof/Word.lean ====
section
/-! DEFINITION. The word types of the machine and nothing else: every value is unsigned (00_scope.md R7). -/

namespace Sys2Proof

/-- An 8-bit value: a general register, a timer, a memory byte, the immediate `kk` (R6 `XLEN`). -/
abbrev Byte := BitVec 8

/-- A 16-bit value: `I`, `PC`, a return address, an instruction word (R6 `ILEN`, `PCLEN`). -/
abbrev Word := BitVec 16

/-- The 12-bit address operand `nnn` (30_encoding.md R61). -/
abbrev Addr := BitVec 12

/-- A register index, the `x` or `y` field: 0 to 15, every value legal (R63). -/
abbrev Reg := Fin 16

/-- The index of `VF`, the flag register: `V[15]` (10_state.md R14). -/
abbrev VF : Reg := 15

end Sys2Proof
end

