-- ==== Sys2Proof/Machine/Flags.lean ====
section
/-! DEFINITION. Every value written to `VF` as a flag (10_state.md R14), from sampled operands, computed on natural
numbers. -/

namespace Sys2Proof.Machine

/-- A flag as the byte `VF` receives: 1 or 0. -/
def flagByte (b : Bool) : Byte := if b then 1 else 0

/-- 8xy4: 1 if the unsigned sum exceeds 255 (41_arith_logic.md R97). -/
def carryFlag (vx vy : Byte) : Byte := flagByte (decide (vx.toNat + vy.toNat > 255))

/-- 8xy5 with `a = vx, b = vy`, 8xy7 with the operands exchanged: 1 if `a >= b`, no borrow (R98, R100). -/
def notBorrowFlag (a b : Byte) : Byte := flagByte (decide (a.toNat ≥ b.toNat))

/-- 8xy6: bit 0 of the operand (R99). -/
def lowBitFlag (vy : Byte) : Byte := flagByte (vy.getLsbD 0)

/-- 8xyE: bit 7 of the operand (R101). -/
def highBitFlag (vy : Byte) : Byte := flagByte (vy.getLsbD 7)

end Sys2Proof.Machine
end

