-- ==== Sys2Proof/Syntax.lean ====
section
/-! DEFINITION. The instruction set: one constructor per row of spec/opcode_table.json (30_encoding.md R66). -/

namespace Sys2Proof

/-- The 28 instructions of R66, with the operands of R63. -/
inductive Instr where
  /-- 00E0 `CLS` (R121) -/
  | cls
  /-- 00EE `RET` (R81) -/
  | ret
  /-- 1nnn `JP addr` (R82) -/
  | jpAddr (nnn : Addr)
  /-- 2nnn `CALL addr` (R83) -/
  | callAddr (nnn : Addr)
  /-- 3xkk `SE Vx,kk` (R84) -/
  | seVxKk (x : Reg) (kk : Byte)
  /-- 4xkk `SNE Vx,kk` (R85) -/
  | sneVxKk (x : Reg) (kk : Byte)
  /-- 5xy0 `SE Vx,Vy` (R86) -/
  | seVxVy (x y : Reg)
  /-- 6xkk `LD Vx,kk` (R91) -/
  | ldVxKk (x : Reg) (kk : Byte)
  /-- 7xkk `ADD Vx,kk` (R92) -/
  | addVxKk (x : Reg) (kk : Byte)
  /-- 8xy0 `LD Vx,Vy` (R93) -/
  | ldVxVy (x y : Reg)
  /-- 8xy1 `OR Vx,Vy` (R94) -/
  | orVxVy (x y : Reg)
  /-- 8xy2 `AND Vx,Vy` (R95) -/
  | andVxVy (x y : Reg)
  /-- 8xy3 `XOR Vx,Vy` (R96) -/
  | xorVxVy (x y : Reg)
  /-- 8xy4 `ADD Vx,Vy` (R97) -/
  | addVxVy (x y : Reg)
  /-- 8xy5 `SUB Vx,Vy` (R98) -/
  | subVxVy (x y : Reg)
  /-- 8xy6 `SHR Vx,Vy` (R99) -/
  | shrVxVy (x y : Reg)
  /-- 8xy7 `SUBN Vx,Vy` (R100) -/
  | subnVxVy (x y : Reg)
  /-- 8xyE `SHL Vx,Vy` (R101) -/
  | shlVxVy (x y : Reg)
  /-- Annn `LD I,addr` (R111) -/
  | ldIAddr (nnn : Addr)
  /-- Cxkk `RND Vx,kk` (R102) -/
  | rndVxKk (x : Reg) (kk : Byte)
  /-- Dxyn `DRW Vx,Vy,n` (R122); `n` counts sprite rows, 0 to 15 -/
  | drwVxVyN (x y : Reg) (n : Fin 16)
  /-- Fx07 `LD Vx,DT` (R130) -/
  | ldVxDt (x : Reg)
  /-- Fx15 `LD DT,Vx` (R131) -/
  | ldDtVx (x : Reg)
  /-- Fx18 `LD ST,Vx` (R132) -/
  | ldStVx (x : Reg)
  /-- Fx1E `ADD I,Vx` (R112) -/
  | addIVx (x : Reg)
  /-- Fx33 `LD B,Vx` (R113) -/
  | ldBVx (x : Reg)
  /-- Fx55 `LD [I],Vx` (R114) -/
  | ldMemVx (x : Reg)
  /-- Fx65 `LD Vx,[I]` (R115) -/
  | ldVxMem (x : Reg)
  deriving DecidableEq, Repr

end Sys2Proof
end

