-- ==== Sys2Proof/Decode.lean ====
section
/-! DEFINITION. Decode, total on every word and every list of bytes, rejecting by name; then the encoder
(30_encoding.md R60 to R67, R72). -/

namespace Sys2Proof

/-! ## Fields (R61) -/

/-- `op`, bits 15:12, the family nibble. -/
def fieldOp (w : Word) : BitVec 4 := w.extractLsb' 12 4
/-- `x`, bits 11:8. -/
def fieldX (w : Word) : BitVec 4 := w.extractLsb' 8 4
/-- `y`, bits 7:4. -/
def fieldY (w : Word) : BitVec 4 := w.extractLsb' 4 4
/-- `n`, bits 3:0. -/
def fieldN (w : Word) : BitVec 4 := w.extractLsb' 0 4
/-- `kk`, bits 7:0. -/
def fieldKK (w : Word) : Byte := w.extractLsb' 0 8
/-- `nnn`, bits 11:0. -/
def fieldNNN (w : Word) : Addr := w.extractLsb' 0 12

/-- A nibble as a register index or a count: 0 to 15, every value legal (R63). -/
def ofNibble (b : BitVec 4) : Fin 16 := b.toFin
/-- The nibble that names a register index or a count. -/
def toNibble (x : Fin 16) : BitVec 4 := BitVec.ofFin x

/-! ## Decode (R65) -/

/-- Why the decoder rejects: the word matches no pattern (R67), or there are not two bytes to read. -/
inductive Rejection where
  | unrecognised (w : Word)
  | truncated
  deriving DecidableEq, Repr

/-- Family 8 by its sub-opcode `n` (R65). -/
def classifyAlu (x y : Reg) (n : Nat) : Option Instr :=
  match n with
  | 0x0 => some (.ldVxVy x y)
  | 0x1 => some (.orVxVy x y)
  | 0x2 => some (.andVxVy x y)
  | 0x3 => some (.xorVxVy x y)
  | 0x4 => some (.addVxVy x y)
  | 0x5 => some (.subVxVy x y)
  | 0x6 => some (.shrVxVy x y)
  | 0x7 => some (.subnVxVy x y)
  | 0xE => some (.shlVxVy x y)
  | _ => none

/-- Family F by its sub-opcode `kk` (R65). -/
def classifyF (x : Reg) (kk : Nat) : Option Instr :=
  match kk with
  | 0x07 => some (.ldVxDt x)
  | 0x15 => some (.ldDtVx x)
  | 0x18 => some (.ldStVx x)
  | 0x1E => some (.addIVx x)
  | 0x33 => some (.ldBVx x)
  | 0x55 => some (.ldMemVx x)
  | 0x65 => some (.ldVxMem x)
  | _ => none

/-- `classify(w)` (R65), the decision tree: families 9, B and E are unrecognised. -/
def classify (w : Word) : Option Instr :=
  let x := ofNibble (fieldX w)
  let y := ofNibble (fieldY w)
  match (fieldOp w).toNat with
  | 0x0 => if w = 0x00E0#16 then some .cls else if w = 0x00EE#16 then some .ret else none
  | 0x1 => some (.jpAddr (fieldNNN w))
  | 0x2 => some (.callAddr (fieldNNN w))
  | 0x3 => some (.seVxKk x (fieldKK w))
  | 0x4 => some (.sneVxKk x (fieldKK w))
  | 0x5 => if fieldN w = 0 then some (.seVxVy x y) else none
  | 0x6 => some (.ldVxKk x (fieldKK w))
  | 0x7 => some (.addVxKk x (fieldKK w))
  | 0x8 => classifyAlu x y (fieldN w).toNat
  | 0xA => some (.ldIAddr (fieldNNN w))
  | 0xC => some (.rndVxKk x (fieldKK w))
  | 0xD => some (.drwVxVyN x y (ofNibble (fieldN w)))
  | 0xF => classifyF x (fieldKK w).toNat
  | _ => none

/-- The decoder on one instruction word: the instruction, or the word rejected as unrecognised (R67). -/
def decode (w : Word) : Except Rejection Instr :=
  match classify w with
  | some i => .ok i
  | none => .error (.unrecognised w)

/-- The word of two bytes, the byte at the lower address being the high byte (R60, 20_memory.md R47). -/
def wordOfBytes (hi lo : Byte) : Word := hi ++ lo

/-- The two bytes of a word in the order of their addresses (R60, R70). -/
def bytesOfWord (w : Word) : List Byte := [w.extractLsb' 8 8, w.extractLsb' 0 8]

/-- The decoder on bytes: one instruction and the bytes after it. -/
def decodeBytes : List Byte → Except Rejection (Instr × List Byte)
  | hi :: lo :: rest =>
    match decode (wordOfBytes hi lo) with
    | .ok i => .ok (i, rest)
    | .error e => .error e
  | _ => .error .truncated

/-- The instruction word of an opcode-table number (log 9): an instruction is one word (R60), so the number's low 16
bits, less the bits at or above `nbits`, which are 0. -/
def tableWord (nbits w : Nat) : Word := BitVec.ofNat 16 (w % 2 ^ nbits)

/-- What the decoder reads from the instruction whose bits are `w`, numbered as spec/opcode_table.json numbers them. -/
def decodeTableWord (nbits w : Nat) : Option Instr :=
  match decodeBytes (bytesOfWord (tableWord nbits w)) with
  | .ok (i, _) => some i
  | .error _ => none

/-! ## Encode (R62, R72) -/

/-- A word from its four nibbles, most significant first. -/
def packNibbles (a b c d : BitVec 4) : Word := a ++ b ++ c ++ d
/-- Format `NNN`: `op :: nnn`. -/
def packNNN (op : BitVec 4) (nnn : Addr) : Word := op ++ nnn
/-- Format `XKK`: `op :: x :: kk`. -/
def packXKK (op : BitVec 4) (x : Reg) (kk : Byte) : Word := op ++ toNibble x ++ kk
/-- Format `XY`: `op :: x :: y :: sub`. -/
def packXY (op : BitVec 4) (x y : Reg) (sub : BitVec 4) : Word := packNibbles op (toNibble x) (toNibble y) sub
/-- Format `XF`: `F :: x :: kk`, `kk` literal. -/
def packXF (x : Reg) (kk : Byte) : Word := packXKK 0xF#4 x kk

/-- The word of an instruction (R72). -/
def encode : Instr → Word
  | .cls => 0x00E0#16
  | .ret => 0x00EE#16
  | .jpAddr nnn => packNNN 0x1#4 nnn
  | .callAddr nnn => packNNN 0x2#4 nnn
  | .seVxKk x kk => packXKK 0x3#4 x kk
  | .sneVxKk x kk => packXKK 0x4#4 x kk
  | .seVxVy x y => packXY 0x5#4 x y 0x0#4
  | .ldVxKk x kk => packXKK 0x6#4 x kk
  | .addVxKk x kk => packXKK 0x7#4 x kk
  | .ldVxVy x y => packXY 0x8#4 x y 0x0#4
  | .orVxVy x y => packXY 0x8#4 x y 0x1#4
  | .andVxVy x y => packXY 0x8#4 x y 0x2#4
  | .xorVxVy x y => packXY 0x8#4 x y 0x3#4
  | .addVxVy x y => packXY 0x8#4 x y 0x4#4
  | .subVxVy x y => packXY 0x8#4 x y 0x5#4
  | .shrVxVy x y => packXY 0x8#4 x y 0x6#4
  | .subnVxVy x y => packXY 0x8#4 x y 0x7#4
  | .shlVxVy x y => packXY 0x8#4 x y 0xE#4
  | .ldIAddr nnn => packNNN 0xA#4 nnn
  | .rndVxKk x kk => packXKK 0xC#4 x kk
  | .drwVxVyN x y n => packXY 0xD#4 x y (toNibble n)
  | .ldVxDt x => packXF x 0x07#8
  | .ldDtVx x => packXF x 0x15#8
  | .ldStVx x => packXF x 0x18#8
  | .addIVx x => packXF x 0x1E#8
  | .ldBVx x => packXF x 0x33#8
  | .ldMemVx x => packXF x 0x55#8
  | .ldVxMem x => packXF x 0x65#8

/-- The two bytes of an instruction in memory, high byte first (R60, R70). -/
def encodeBytes (i : Instr) : List Byte := bytesOfWord (encode i)

end Sys2Proof
end

