-- ==== Sys2Proof/Config.lean ====
section
/-! DEFINITION. The parameters of 00_scope.md R6: the record of the parameters a claim may want to
quantify over (92_eei_decisions.md, "Parameters left open to the model"), and the one free value. The fixed sizes
(`MEM_SIZE` 4096, `FONT_LEN` 80, `NREGS` 16, `FB_W` 64, `FB_H` 32, `NKEYS` 16, `PROG_BASE` 0x200) stand in the types and
operations as numbers. -/

namespace Sys2Proof

/-- `MAX_IMAGE` (R6): the largest image `load` accepts, `MEM_SIZE - PROG_BASE` = 4096 - 0x200. -/
def maxImage : Nat := 3584

/-- `DRAW_MODE` (R6): how DRW combines a sprite bit with a cell (43_display.md R123, R124). -/
inductive DrawMode where
  | overwrite
  | xor
  deriving DecidableEq, Repr

/-- The parameters a machine is built with, fixed for its life (10_state.md R11). `STACK_LIMIT` is none (R6), so it
has no field. -/
structure Config where
  /-- The 80 glyph bytes, glyph `d` at `5 * d` (20_memory.md R42). -/
  font : Vector Byte 80
  /-- The byte that reset puts outside the font (R6 `MEM_FILL`). -/
  memFill : Byte
  /-- R6 `DRAW_MODE`. -/
  drawMode : DrawMode
  deriving DecidableEq, Repr

/-- FREE VALUE (log 3, DESIGN CHOICE): the byte of the `k`-th `draw_byte()` of a machine (41_arith_logic.md R102,
D14). It has no body, so a claim holds for every byte of every draw. -/
opaque Config.drawByte : Nat → Byte

end Sys2Proof
end

