-- ==== Sys2Proof/Machine/Memory.lean ====
section
/-! DEFINITION. `MEM` as data: the cells whose byte differs from the byte reset puts there, addresses rising (log 7).
The reads and writes of bytes that every access of the machine goes through (20_memory.md R40 to R47). -/

namespace Sys2Proof.Machine

/-- `MEM` (10_state.md R22): the cells that differ from their reset contents. -/
abbrev Memory := List Host.Cell

/-- What an unlisted address reads as: its reset contents, `FONT` at 0x000 to 0x04F and `MEM_FILL` elsewhere
(10_state.md R28, 20_memory.md R41). -/
def unlistedByte (c : Config) (a : Nat) : Byte :=
  if h : a < 80 then c.font[a] else c.memFill

/-- The listed byte of an address, if it is listed. -/
def Memory.find : Memory → Nat → Option Byte
  | [], _ => none
  | (k, b) :: rest, a => if a = k then some b else Memory.find rest a

/-- `MEM[a]`. -/
def Memory.peek (c : Config) (m : Memory) (a : Nat) : Byte :=
  match Memory.find m a with
  | some b => b
  | none => unlistedByte c a

/-- List a byte at an address, in the address's place. -/
def Memory.put (a : Nat) (b : Byte) : Memory → Memory
  | [] => [(a, b)]
  | (k, x) :: rest =>
    if a < k then (a, b) :: (k, x) :: rest
    else if a = k then (a, b) :: rest
    else (k, x) :: Memory.put a b rest

/-- Unlist an address. -/
def Memory.drop (a : Nat) : Memory → Memory
  | [] => []
  | (k, x) :: rest => if a = k then Memory.drop a rest else (k, x) :: Memory.drop a rest

/-- `MEM[a] <- b`, keeping the canonical form: writing the reset contents removes the entry. -/
def Memory.poke (c : Config) (m : Memory) (a : Nat) (b : Byte) : Memory :=
  if b = unlistedByte c a then Memory.drop a m else Memory.put a b m

/-- Bytes at ascending addresses from `a` (20_memory.md R47). -/
def Memory.pokeBytes (c : Config) : Memory → Nat → List Byte → Memory
  | m, _, [] => m
  | m, a, b :: bs => Memory.pokeBytes c (Memory.poke c m a b) (a + 1) bs

/-- The `n` bytes at ascending addresses from `a`. -/
def Memory.peekBytes (c : Config) (m : Memory) : Nat → Nat → List Byte
  | _, 0 => []
  | a, n + 1 => Memory.peek c m a :: Memory.peekBytes c m (a + 1) n

/-- The canonical form (log 7): addresses strictly rising and inside `MEM`, no entry equal to what an unlisted address
reads as. -/
abbrev Memory.wf (c : Config) (m : Memory) : Prop :=
  m.Pairwise (fun p q => p.1 < q.1) ∧ ∀ p ∈ m, p.1 < 4096 ∧ p.2 ≠ unlistedByte c p.1

end Sys2Proof.Machine
end

