-- ==== Sys2Proof/Machine/Params.lean ====
section
/-! DEFINITION. The values the parameters take for this hardware (00_scope.md R6, third column). They enter the machine
only through `State.reset`: every operation reads the parameters from the state it runs in (log 1). -/

namespace Sys2Proof.Machine

/-- PRESUMED (log 2): the glyphs of 20_memory.md R42, digits 0 to 7, "from general knowledge, not in source". -/
def glyphsLow : List Byte :=
  [0xF0, 0x90, 0x90, 0x90, 0xF0] ++ [0x20, 0x60, 0x20, 0x20, 0x70] ++
  [0xF0, 0x10, 0xF0, 0x80, 0xF0] ++ [0xF0, 0x10, 0xF0, 0x10, 0xF0] ++
  [0x90, 0x90, 0xF0, 0x10, 0x10] ++ [0xF0, 0x80, 0xF0, 0x10, 0xF0] ++
  [0xF0, 0x80, 0xF0, 0x90, 0xF0] ++ [0xF0, 0x10, 0x20, 0x40, 0x40]

/-- PRESUMED (log 2): the glyphs of 20_memory.md R42, digits 8 to F. -/
def glyphsHigh : List Byte :=
  [0xF0, 0x90, 0xF0, 0x90, 0xF0] ++ [0xF0, 0x90, 0xF0, 0x10, 0xF0] ++
  [0xF0, 0x90, 0xF0, 0x90, 0x90] ++ [0xE0, 0x90, 0xE0, 0x90, 0xE0] ++
  [0xF0, 0x80, 0x80, 0x80, 0xF0] ++ [0xE0, 0x90, 0x90, 0x90, 0xE0] ++
  [0xF0, 0x80, 0xF0, 0x80, 0xF0] ++ [0xF0, 0x80, 0xF0, 0x80, 0x80]

/-- `FONT` at its default (R42, D11): the 80 bytes from address 0. -/
def defaultFont : Vector Byte 80 := ⟨(glyphsLow ++ glyphsHigh).toArray, rfl⟩

/-- `MEM_FILL` (R6, D10). -/
def hardwareMemFill : Byte := 0x00

/-- `DRAW_MODE` (R6, R123, D1). -/
def hardwareDrawMode : DrawMode := .overwrite

/-- The parameters of this hardware (R6). -/
def hardware : Config :=
  { font := defaultFont, memFill := hardwareMemFill, drawMode := hardwareDrawMode }

end Sys2Proof.Machine
end

