-- ==== Sys2Proof/Machine/State.lean ====
section
/-! DEFINITION. The whole state of the machine (10_state.md R10) as plain data, the reasons a step can stop, and the
state after reset (R28). -/

namespace Sys2Proof.Machine

/-- The causes of a fault (60_exceptions.md R141). -/
inductive Cause where
  /-- 1: the fetched word matches no pattern (R142). -/
  | unrecognizedInstruction
  /-- 2: RET on an empty call stack (R143). -/
  | stackUnderflow
  /-- 3: a data access or a fetch at or beyond 4096 (R144, R145). -/
  | outOfBoundsAccess
  /-- 4: never raised; kept so that the document's four variants all have a number (R146). -/
  | registerIndexOverflow
  /-- 5: `load` of more than 3584 bytes (R147). -/
  | loadOverflow
  deriving DecidableEq, Repr

/-- `STATUS` (R25): running, or faulted with cause, address and information (R141). -/
inductive Status where
  | running
  | faulted (cause : Cause) (faultPc : Word) (info : Word)
  deriving DecidableEq, Repr

/-- `FB` (R23): 32 rows of 64 one-bit cells, row 0 at the top, column 0 at the left. -/
abbrev Screen := Vector (Vector Bool 64) 32

/-- The architectural state (R10), then two fields of the model's own: `cfg` (log 1) and `draws` (log 3). -/
structure State where
  /-- `V[0]` to `V[15]` (R12). -/
  regs : Vector Byte 16
  /-- `I` (R15). -/
  i : Word
  /-- `PC` (R16). -/
  pc : Word
  /-- `DT` (R20). -/
  dt : Byte
  /-- `ST` (R20). -/
  st : Byte
  /-- `STACK` (R21): the head is the top (log 8). -/
  stack : List Word
  /-- `MEM` (R22). -/
  mem : Memory
  /-- `FB` (R23). -/
  fb : Screen
  /-- `KEY[0]` to `KEY[15]`, true for pressed (R24). -/
  key : Vector Bool 16
  /-- `STATUS` (R25). -/
  status : Status
  /-- The parameters (00_scope.md R6), which no action writes (log 1). -/
  cfg : Config
  /-- How many bytes `draw_byte()` has given (log 3). -/
  draws : Nat
  deriving DecidableEq, Repr

/-- Stops outside what the spec describes: none. Every failure of the machine is a described next state with `STATUS`
set (60_exceptions.md R140, R148), so no constructor is needed and no step can fault this way (log 4, safe). -/
inductive Fault
  deriving DecidableEq, Repr

/-- Why an action has no meaning. -/
inductive Refusal where
  /-- An arm of `exec` whose instruction has no meaning yet: raised by none, all 28 are modelled (safe). -/
  | notModelled (mnemonic : String)
  /-- The host's `load` outside its lifecycle: a second one, or one after a step; the spec "gives it no meaning: a
  model refuses it" (70_reset_and_hazards.md R182). Raised by `System.act` only, never by `step` (log 6, safe). -/
  | loadOutsideLifecycle
  deriving DecidableEq, Repr

/-- The outcome of an instruction, of a step. -/
abbrev Result := Host.Outcome State Fault Refusal

/-- The state after reset of a machine with parameters `c` whose environment has already given `draws` bytes (R28). -/
def State.resetWith (c : Config) (draws : Nat) : State :=
  { regs := Vector.replicate 16 0
    i := 0
    pc := 0x0200
    dt := 0
    st := 0
    stack := []
    mem := []
    fb := Vector.replicate 32 (Vector.replicate 64 false)
    key := Vector.replicate 16 false
    status := .running
    cfg := c
    draws := draws }

/-- The state right after reset (R28): this hardware's parameters, no byte drawn yet. -/
def State.reset : State := State.resetWith hardware 0

end Sys2Proof.Machine
end

