-- ==== Sys2Proof/Machine/Ops.lean ====
section
/-! DEFINITION. The named operations over the state: one write per field, byte reads and writes of `MEM`, the bounds
check of data accesses, instruction fetch, taking a fault, and the one way out of it. -/

namespace Sys2Proof.Machine

/-! ## One write per field -/

/-- `V[x]` (10_state.md R12); no register is hardwired. -/
def State.V (s : State) (x : Reg) : Byte := s.regs[x]
/-- `V[x] <- b`. -/
def State.setV (s : State) (x : Reg) (b : Byte) : State := { s with regs := s.regs.set x b }
/-- The whole register file, for block transfers. -/
def State.setRegs (s : State) (r : Vector Byte 16) : State := { s with regs := r }
/-- `I <- w`. -/
def State.setI (s : State) (w : Word) : State := { s with i := w }
/-- `PC <- w`. -/
def State.setPc (s : State) (w : Word) : State := { s with pc := w }
/-- `DT <- b`. -/
def State.setDt (s : State) (b : Byte) : State := { s with dt := b }
/-- `ST <- b`. -/
def State.setSt (s : State) (b : Byte) : State := { s with st := b }
/-- The call stack, head on top. -/
def State.setStack (s : State) (l : List Word) : State := { s with stack := l }
/-- `MEM`. -/
def State.setMem (s : State) (m : Memory) : State := { s with mem := m }
/-- `FB`. -/
def State.setFb (s : State) (f : Screen) : State := { s with fb := f }
/-- `KEY[k] <- b`. -/
def State.setKey (s : State) (k : Fin 16) (b : Bool) : State := { s with key := s.key.set k b }
/-- `STATUS <- t`. -/
def State.setStatus (s : State) (t : Status) : State := { s with status := t }
/-- The count of bytes drawn (log 3). -/
def State.setDraws (s : State) (n : Nat) : State := { s with draws := n }

/-! ## Bytes of memory (20_memory.md R43 to R47) -/

/-- `MEM[a]`, one byte. -/
def State.byteAt (s : State) (a : Nat) : Byte := Memory.peek s.cfg s.mem a
/-- The `n` bytes from `a`, ascending. -/
def State.loadBytes (s : State) (a n : Nat) : List Byte := Memory.peekBytes s.cfg s.mem a n
/-- The bytes `bs` stored from `a`, ascending; nothing else changes (R44, R50). -/
def State.storeBytes (s : State) (a : Nat) (bs : List Byte) : State :=
  s.setMem (Memory.pokeBytes s.cfg s.mem a bs)

/-! ## Taking a fault (60_exceptions.md R140 to R151) -/

/-- FAULT ENTRY (R148): `STATUS <- Faulted(cause, fault_pc, info)` and nothing else; nothing is saved, `PC` is not
redirected, no mode changes. -/
def raise (cause : Cause) (faultPc info : Word) (s : State) : Result :=
  .next (s.setStatus (.faulted cause faultPc info))

/-- A fault of the execute stage: there `PC = a + 2`, so the address `a` of the instruction is `PC - 2` (R141, R149,
30_encoding.md R64; DEDUCED, log 4). -/
def raiseInExecute (cause : Cause) (info : Word) (s : State) : Result :=
  raise cause (s.pc - 2) info s

/-- RETURN FROM A FAULT: there is no instruction for it; the only exit is the host's `reset` (R151, R180), which gives
every piece of state its reset value. The parameters stay, and the count of draws goes on, since the bytes come from
outside the machine (10_state.md R11, log 3). -/
def State.resetEvent (s : State) : State := State.resetWith s.cfg s.draws

/-- The lowest out-of-bounds address of an access from `a`: `max(a, 4096)` (R141, R144, R145, D26). -/
def lowestOutOfBounds (a : Word) : Word := BitVec.ofNat 16 (max a.toNat 4096)

/-! ## Data accesses -/

/-- The check of 20_memory.md R49 on the `count` consecutive addresses from `I`, on natural numbers (R45): made only
when `count >= 1`. -/
abbrev State.dataOutOfBounds (s : State) (count : Nat) : Prop :=
  1 ≤ count ∧ 4096 ≤ s.i.toNat + (count - 1)

/-- A data access of `count` bytes from `I`: the fault before any write, or the whole effect (R49, R144, R149). -/
def withDataAccess (count : Nat) (s : State) (whole : State) : Result :=
  if s.dataOutOfBounds count then raiseInExecute .outOfBoundsAccess (lowestOutOfBounds s.i) s
  else .next whole

/-! ## Instruction fetch (20_memory.md R46) -/

/-- `MemRead(PC, 2)`: the big-endian word at `PC` and `PC + 1`, or none where `PC + 1 >= 4096`. No alignment is
required (R48). -/
def State.fetch (s : State) : Option Word :=
  if 4096 ≤ s.pc.toNat + 1 then none
  else some (wordOfBytes (s.byteAt s.pc.toNat) (s.byteAt (s.pc.toNat + 1)))

/-- The fetch fault (R145): `PC` is not advanced, `fault_pc = a`, `info = max(a, 4096)`. -/
def raiseInFetch (s : State) : Result :=
  raise .outOfBoundsAccess s.pc (lowestOutOfBounds s.pc) s

/-- `PC <- a + 2`, before the operation is applied (10_state.md R16, 30_encoding.md R64). -/
def State.advance (s : State) : State := s.setPc (s.pc + 2)

/-- The fault of a word that matches no pattern (R142): raised after `PC` has been advanced. -/
def raiseUnrecognised (w : Word) (s : State) : Result :=
  raiseInExecute .unrecognizedInstruction w s

/-- `s` with a word where the next step fetches it. A state that could not run it (`PC` outside memory, or faulted) is
first made to: `PC` at the load address, `STATUS` running (log 9). -/
def State.placeWord (s : State) (w : Word) : State :=
  let s' := if 4096 ≤ s.pc.toNat + 1 then s.setPc 0x0200 else s
  (s'.setStatus .running).storeBytes s'.pc.toNat (bytesOfWord w)

end Sys2Proof.Machine
end

