-- ==== Sys2Proof/Machine/Operands.lean ====
section
/-! DEFINITION. The operand forms (30_encoding.md R63, 42_index_memory.md R110): zero extension of `nnn` and of a
register, the registers a block transfer names, the digits of a BCD store, and the two orders of the writes of a result
and a flag (41_arith_logic.md R90). -/

namespace Sys2Proof.Machine

/-- `zext_16(nnn)` (R63). -/
def zextAddr (nnn : Addr) : Word := nnn.zeroExtend 16

/-- A register zero-extended to 16 bits (42_index_memory.md R112). -/
def zextByte (b : Byte) : Word := b.zeroExtend 16

/-- The address a data access starts at: `I` as a natural number (20_memory.md R45). -/
def State.dataAddress (s : State) : Nat := s.i.toNat

/-- `V[0]` to `V[x]`, ascending: the sources of Fx55 (R114). -/
def State.regsUpTo (s : State) (x : Reg) : List Byte := s.regs.toList.take (x.val + 1)

/-- The register file with `V[0]` to `V[x]` taken from the bytes at `a`, ascending; registers above `x` keep their
values (R115). -/
def State.regsFrom (s : State) (x : Reg) (a : Nat) : Vector Byte 16 :=
  Vector.ofFn fun j => if j ≤ x then s.byteAt (a + j.val) else s.V j

/-- The three decimal digits of a byte, hundreds first (R113). -/
def bcdDigits (b : Byte) : List Byte :=
  [BitVec.ofNat 8 (b.toNat / 100), BitVec.ofNat 8 (b.toNat / 10 % 10), BitVec.ofNat 8 (b.toNat % 10)]

/-- `V[x] <- result`, then `VF <- flag`: with `x = 15` the flag stands (R90: 8xy4, 8xy5, 8xy7). -/
def State.writeResultThenFlag (s : State) (x : Reg) (result flag : Byte) : State :=
  (s.setV x result).setV VF flag

/-- `VF <- flag`, then `V[x] <- result`: with `x = 15` the result stands (R90: 8xy6, 8xyE). -/
def State.writeFlagThenResult (s : State) (x : Reg) (flag result : Byte) : State :=
  (s.setV VF flag).setV x result

/-- A skip: `PC <- npc + 2` when the condition holds (40_control_flow.md R80). -/
def State.skipIf (s : State) (c : Bool) : State := if c then s.setPc (s.pc + 2) else s

end Sys2Proof.Machine
end

