-- ==== Sys2Proof/Machine/ArithLogic.lean ====
section
/-! DEFINITION. Register load, arithmetic, logic, shift and random instructions (41_arith_logic.md R90 to R104). The
operands are the registers' values before any write (R90). -/

namespace Sys2Proof.Machine

/-- 6xkk `LD Vx,kk` (R91). -/
def execLdVxKk (x : Reg) (kk : Byte) (s : State) : Result := .next (s.setV x kk)

/-- 7xkk `ADD Vx,kk` (R92): modulo 256, no flag. -/
def execAddVxKk (x : Reg) (kk : Byte) (s : State) : Result :=
  .next (s.setV x (BitVec.ofNat 8 ((s.V x).toNat + kk.toNat)))

/-- 8xy0 `LD Vx,Vy` (R93). -/
def execLdVxVy (x y : Reg) (s : State) : Result := .next (s.setV x (s.V y))

/-- 8xy1 `OR Vx,Vy` (R94): `VF` is not written. -/
def execOrVxVy (x y : Reg) (s : State) : Result := .next (s.setV x (s.V x ||| s.V y))

/-- 8xy2 `AND Vx,Vy` (R95). -/
def execAndVxVy (x y : Reg) (s : State) : Result := .next (s.setV x (s.V x &&& s.V y))

/-- 8xy3 `XOR Vx,Vy` (R96). -/
def execXorVxVy (x y : Reg) (s : State) : Result := .next (s.setV x (s.V x ^^^ s.V y))

/-- 8xy4 `ADD Vx,Vy` (R97): the natural sum modulo 256, then the carry. -/
def execAddVxVy (x y : Reg) (s : State) : Result :=
  .next (s.writeResultThenFlag x (BitVec.ofNat 8 ((s.V x).toNat + (s.V y).toNat)) (carryFlag (s.V x) (s.V y)))

/-- 8xy5 `SUB Vx,Vy` (R98): `(vx - vy) mod 256`, then not-borrow. -/
def execSubVxVy (x y : Reg) (s : State) : Result :=
  .next (s.writeResultThenFlag x (s.V x - s.V y) (notBorrowFlag (s.V x) (s.V y)))

/-- 8xy6 `SHR Vx,Vy` (R99): the source is `V[y]`; bit 0 to `VF`, then `vy div 2`. -/
def execShrVxVy (x y : Reg) (s : State) : Result :=
  .next (s.writeFlagThenResult x (lowBitFlag (s.V y)) (BitVec.ofNat 8 ((s.V y).toNat / 2)))

/-- 8xy7 `SUBN Vx,Vy` (R100): `(vy - vx) mod 256`, then not-borrow. -/
def execSubnVxVy (x y : Reg) (s : State) : Result :=
  .next (s.writeResultThenFlag x (s.V y - s.V x) (notBorrowFlag (s.V y) (s.V x)))

/-- 8xyE `SHL Vx,Vy` (R101): the source is `V[y]`; bit 7 to `VF`, then `(vy * 2) mod 256`. -/
def execShlVxVy (x y : Reg) (s : State) : Result :=
  .next (s.writeFlagThenResult x (highBitFlag (s.V y)) (BitVec.ofNat 8 ((s.V y).toNat * 2)))

/-- `draw_byte()` (R102): the free value of this draw (log 3). -/
def State.drawByte (s : State) : Byte := Config.drawByte s.draws

/-- Cxkk `RND Vx,kk` (R102): a fresh byte under the mask; the next draw is another one. -/
def execRndVxKk (x : Reg) (kk : Byte) (s : State) : Result :=
  .next ((s.setV x (s.drawByte &&& kk)).setDraws (s.draws + 1))

end Sys2Proof.Machine
end

