-- ==== Sys2Proof/Machine/ControlFlow.lean ====
section
/-! DEFINITION. RET, JP, CALL and the three skips (40_control_flow.md R80 to R87). `s.pc` is `npc` (R80). -/

namespace Sys2Proof.Machine

/-- 00EE `RET` (R81): `PC <- pop()`, or `StackUnderflow` with nothing popped. -/
def execRet (s : State) : Result :=
  match s.stack with
  | [] => raiseInExecute .stackUnderflow 0 s
  | a :: rest => .next ((s.setStack rest).setPc a)

/-- 1nnn `JP addr` (R82). -/
def execJpAddr (nnn : Addr) (s : State) : Result := .next (s.setPc (zextAddr nnn))

/-- 2nnn `CALL addr` (R83): `push(npc)`, no limit (R165), then the jump. -/
def execCallAddr (nnn : Addr) (s : State) : Result :=
  .next ((s.setStack (s.pc :: s.stack)).setPc (zextAddr nnn))

/-- 3xkk `SE Vx,kk` (R84). -/
def execSeVxKk (x : Reg) (kk : Byte) (s : State) : Result := .next (s.skipIf (s.V x == kk))

/-- 4xkk `SNE Vx,kk` (R85). -/
def execSneVxKk (x : Reg) (kk : Byte) (s : State) : Result := .next (s.skipIf (s.V x != kk))

/-- 5xy0 `SE Vx,Vy` (R86). -/
def execSeVxVy (x y : Reg) (s : State) : Result := .next (s.skipIf (s.V x == s.V y))

end Sys2Proof.Machine
end

