-- ==== Sys2Proof/Machine/Display.lean ====
section
/-! DEFINITION. The draw engine and the display instructions (43_display.md R120 to R126). -/

namespace Sys2Proof.Machine

/-- `FB[row][col]`. -/
def Screen.cell (f : Screen) (row : Fin 32) (col : Fin 64) : Bool := f[row][col]

/-- `FB[row][col] <- b`. -/
def Screen.setCell (f : Screen) (row : Fin 32) (col : Fin 64) (b : Bool) : Screen :=
  f.set row (f[row].set col b)

/-- A screen with every cell off. -/
def Screen.off : Screen := Vector.replicate 32 (Vector.replicate 64 false)

/-- The row coordinate of sprite row `r`: `(vy + r) mod 32`, toroidal (R120, R122). -/
def spriteRow (vy : Byte) (r : Nat) : Fin 32 := Fin.ofNat 32 (vy.toNat + r)

/-- The column coordinate of sprite column `c`: `(vx + c) mod 64` (R120, R122). -/
def spriteCol (vx : Byte) (c : Nat) : Fin 64 := Fin.ofNat 64 (vx.toNat + c)

/-- Sprite column `c` of a sprite byte, column 0 leftmost: bit `7 - c` (R122). -/
def spriteBit (b : Byte) (c : Nat) : Bool := b.getLsbD (7 - c)

/-- What a draw changes as it goes: the framebuffer and `flag` (R122). -/
structure Canvas where
  fb : Screen
  flag : Bool
  deriving DecidableEq, Repr

/-- `combine(row, col, bit)`: overwrite the cell (R123), or exclusive-or with the flag set when the cell goes from on
to off (R124). -/
def combine (mode : DrawMode) (row : Fin 32) (col : Fin 64) (bit : Bool) (k : Canvas) : Canvas :=
  match mode with
  | .overwrite => { k with fb := Screen.setCell k.fb row col bit }
  | .xor =>
    { fb := Screen.setCell k.fb row col (Screen.cell k.fb row col ^^ bit)
      flag := k.flag || (Screen.cell k.fb row col && bit) }

/-- One sprite row: `for c in 0..7` (R122), with `c` running over the list. -/
def drawColumns (mode : DrawMode) (vx : Byte) (row : Fin 32) (b : Byte) : List Nat → Canvas → Canvas
  | [], k => k
  | c :: cs, k => drawColumns mode vx row b cs (combine mode row (spriteCol vx c) (spriteBit b c) k)

/-- The eight columns of a sprite row, left to right. -/
def spriteColumns : List Nat := [0, 1, 2, 3, 4, 5, 6, 7]

/-- The sprite rows from row `r` on: `for r in 0..n-1` (R122), with one byte of the list per row. -/
def drawRows (mode : DrawMode) (vx vy : Byte) : Nat → List Byte → Canvas → Canvas
  | _, [], k => k
  | r, b :: bs, k => drawRows mode vx vy (r + 1) bs (drawColumns mode vx (spriteRow vy r) b spriteColumns k)

/-- The canvas after the draw of the sprite `bytes` at `(vx, vy)`; the flag starts at 0 (R122). -/
def State.drawSprite (s : State) (vx vy : Byte) (bytes : List Byte) : Canvas :=
  drawRows s.cfg.drawMode vx vy 0 bytes { fb := s.fb, flag := false }

/-- 00E0 `CLS` (R121). -/
def execCls (s : State) : Result := .next (s.setFb Screen.off)

/-- What a finished draw leaves: the framebuffer, then `VF <- flag` (R122). -/
def State.withCanvas (s : State) (k : Canvas) : State := (s.setFb k.fb).setV VF (flagByte k.flag)

/-- Dxyn `DRW Vx,Vy,n` (R122 to R125): bounds, draw, `VF`. With `n = 0` nothing is read or checked. -/
def execDrwVxVyN (x y : Reg) (n : Fin 16) (s : State) : Result :=
  withDataAccess n.val s
    (s.withCanvas (s.drawSprite (s.V x) (s.V y) (s.loadBytes s.dataAddress n.val)))

end Sys2Proof.Machine
end

