-- ==== Sys2Proof/Machine/IndexMemory.lean ====
section
/-! DEFINITION. Index-register, BCD and block-transfer instructions (42_index_memory.md R110 to R116). None changes `I`
but Annn and Fx1E (10_state.md R15). -/

namespace Sys2Proof.Machine

/-- Annn `LD I,addr` (R111). -/
def execLdIAddr (nnn : Addr) (s : State) : Result := .next (s.setI (zextAddr nnn))

/-- Fx1E `ADD I,Vx` (R112): 16-bit addition, no flag, no fault. -/
def execAddIVx (x : Reg) (s : State) : Result := .next (s.setI (s.i + zextByte (s.V x)))

/-- Fx33 `LD B,Vx` (R113): hundreds, tens, ones at `I`, `I + 1`, `I + 2`. -/
def execLdBVx (x : Reg) (s : State) : Result :=
  withDataAccess 3 s (s.storeBytes s.dataAddress (bcdDigits (s.V x)))

/-- Fx55 `LD [I],Vx` (R114): `V[0]` to `V[x]` at `I` to `I + x`. -/
def execLdMemVx (x : Reg) (s : State) : Result :=
  withDataAccess (x.val + 1) s (s.storeBytes s.dataAddress (s.regsUpTo x))

/-- Fx65 `LD Vx,[I]` (R115): `V[0]` to `V[x]` from `I` to `I + x`. -/
def execLdVxMem (x : Reg) (s : State) : Result :=
  withDataAccess (x.val + 1) s (s.setRegs (s.regsFrom x s.dataAddress))

end Sys2Proof.Machine
end

