-- ==== Sys2Proof/Machine/Timers.lean ====
section
/-! DEFINITION. Timer-register instructions (44_timers.md R130 to R133). The countdown is no instruction: it is
`State.tick`. -/

namespace Sys2Proof.Machine

/-- Fx07 `LD Vx,DT` (R130). -/
def execLdVxDt (x : Reg) (s : State) : Result := .next (s.setV x s.dt)

/-- Fx15 `LD DT,Vx` (R131). -/
def execLdDtVx (x : Reg) (s : State) : Result := .next (s.setDt (s.V x))

/-- Fx18 `LD ST,Vx` (R132). -/
def execLdStVx (x : Reg) (s : State) : Result := .next (s.setSt (s.V x))

end Sys2Proof.Machine
end

