-- ==== Sys2Proof/Machine/Step.lean ====
section
/-! DEFINITION. One `step` event: one fetch-decode-execute cycle (30_encoding.md R64). -/

namespace Sys2Proof.Machine

/-- R64, with the priority of 60_exceptions.md R150: nothing while faulted (R151); the fetch, which may fault with `PC`
unchanged (R145); `PC <- a + 2`; the word's fault (R142) or the instruction, which sees `PC = npc`. -/
def step (s : State) : Host.Outcome State Fault Refusal :=
  match s.status with
  | .faulted _ _ _ => .next s
  | .running =>
    match s.fetch with
    | none => raiseInFetch s
    | some w =>
      match decode w with
      | .error _ => raiseUnrecognised w s.advance
      | .ok i => exec i s.advance

/-- `s` with the instruction of opcode-table number `w` stored where the next step fetches it (log 9). -/
def State.withFetchWord (s : State) (nbits w : Nat) : State := s.placeWord (tableWord nbits w)

end Sys2Proof.Machine
end

