-- ==== Sys2Proof/Machine/HostSurface.lean ====
section
/-! DEFINITION. The other agents: the tick unit (60_exceptions.md R155 to R157) and the host's operations
(R158 to R166, 70_reset_and_hazards.md R180 to R183), and a schedule of atomic actions. -/

namespace Sys2Proof.Machine

/-! ## The tick unit -/

/-- A timer counted down once, stopping at 0 (R155, R156). -/
def countDown (t : Byte) : Byte := if t = 0 then 0 else t - 1

/-- A `tick` event (R155, R156): both timers, only while running (R151). -/
def State.tick (s : State) : State :=
  match s.status with
  | .running => (s.setDt (countDown s.dt)).setSt (countDown s.st)
  | .faulted _ _ _ => s

/-! ## What the host reads -/

/-- The audio gate: 1 exactly when `ST != 0` (R158). -/
def State.gate (s : State) : Bool := s.st != 0

/-- `read_DT` (R160). -/
def State.readDt (s : State) : Byte := s.dt

/-- `read_ST` (R160). -/
def State.readSt (s : State) : Byte := s.st

/-- `read_KEY(k)` (R159). -/
def State.readKey (s : State) (k : Fin 16) : Bool := s.key[k]

/-- The framebuffer snapshot (R161): the 2048 cells, row-major (10_state.md R23). -/
def State.snapshotFb (s : State) : List Bool := s.fb.toList.flatMap Vector.toList

/-- The code of a cause (R141). -/
def Cause.code : Cause → Nat
  | .unrecognizedInstruction => 1
  | .stackUnderflow => 2
  | .outOfBoundsAccess => 3
  | .registerIndexOverflow => 4
  | .loadOverflow => 5

/-- The code in `STATUS`: 0 while running (R141). -/
def Status.code : Status → Nat
  | .running => 0
  | .faulted c _ _ => c.code

/-! ## What the host writes -/

/-- `s'` while running, `s` itself while faulted: host writes are then ignored (R151). -/
def State.ifRunning (s s' : State) : State :=
  match s.status with
  | .running => s'
  | .faulted _ _ _ => s

/-- `write_DT(v)` (R160). -/
def State.writeDt (s : State) (b : Byte) : State := s.ifRunning (s.setDt b)

/-- `write_ST(v)` (R160). -/
def State.writeSt (s : State) (b : Byte) : State := s.ifRunning (s.setSt b)

/-- `write_KEY(k, b)` (R159). -/
def State.writeKey (s : State) (k : Fin 16) (b : Bool) : State := s.ifRunning (s.setKey k b)

/-- The effect of `load(bytes)` (70_reset_and_hazards.md R182): the image at 0x200, or, when it is too long, nothing
written and `LoadOverflow` (60_exceptions.md R147). -/
def State.load (s : State) (bytes : List Byte) : State :=
  if bytes.length ≤ maxImage then s.storeBytes 0x200 bytes
  else s.setStatus (.faulted .loadOverflow 0x0200 (BitVec.ofNat 16 (min bytes.length 0xFFFF)))

/-! ## Schedules (R157, R183) -/

/-- Where a machine is in its lifecycle (R183): the host's `load` has a meaning only when fresh (log 6). -/
inductive Phase where
  /-- Reset, nothing loaded, no step. -/
  | fresh
  /-- Loaded, no step. -/
  | loaded
  /-- A step has happened. -/
  | started
  deriving DecidableEq, Repr

/-- The machine and its lifecycle phase. -/
structure System where
  state : State
  phase : Phase
  deriving DecidableEq, Repr

/-- The atomic actions of the three agents (R5, R166). -/
inductive Event where
  | reset
  | load (bytes : List Byte)
  | step
  | tick
  | writeDt (b : Byte)
  | writeSt (b : Byte)
  | writeKey (k : Fin 16) (b : Bool)
  deriving DecidableEq, Repr

/-- A system right after reset (R180, R181). -/
def System.boot : System := { state := State.reset, phase := .fresh }

/-- A `step` event on a system. -/
def System.stepEvent (m : System) : Host.Outcome System Fault Refusal :=
  match step m.state with
  | .next s => .next { state := s, phase := .started }
  | .fault f => .fault f
  | .refused r => .refused r

/-- A `load` event: `load` once, before the first step, while running; the spec gives any other no meaning, so it is
refused (R182, D13). -/
def System.loadEvent (m : System) (bytes : List Byte) : Host.Outcome System Fault Refusal :=
  if m.phase = .fresh ∧ m.state.status = .running then
    .next { state := m.state.load bytes, phase := .loaded }
  else .refused .loadOutsideLifecycle

/-- One atomic action (R157). -/
def System.act (m : System) : Event → Host.Outcome System Fault Refusal
  | .reset => .next { state := m.state.resetEvent, phase := .fresh }
  | .load bytes => m.loadEvent bytes
  | .step => m.stepEvent
  | .tick => .next { m with state := m.state.tick }
  | .writeDt b => .next { m with state := m.state.writeDt b }
  | .writeSt b => .next { m with state := m.state.writeSt b }
  | .writeKey k b => .next { m with state := m.state.writeKey k b }

/-- A schedule: any list of whole actions, one after another (R157). -/
def System.run (m : System) : List Event → Host.Outcome System Fault Refusal
  | [] => .next m
  | e :: es =>
    match m.act e with
    | .next m' => m'.run es
    | .fault f => .fault f
    | .refused r => .refused r

end Sys2Proof.Machine
end

