-- ==== Sys2Proof/Safety.lean ====
section
/-! DEFINITION. What counts as a safe state and a safe run, the invariant of reachable states, the words frames are
written in, and the spec's own tables of who accesses what. -/

namespace Sys2Proof

open Sys2Proof.Machine

/-- The machine has not faulted (10_state.md R25). -/
abbrev Running (s : State) : Prop := s.status = .running

/-- A schedule after which the machine is still running: it neither faults (60_exceptions.md R140) nor asks the host
for a `load` that has no meaning (70_reset_and_hazards.md R182). -/
def SafeRun (m : System) (es : List Event) : Prop := ∃ m', m.run es = .next m' ∧ Running m'.state

/-- A cause the step engine can raise: 1, 2 or 3 (60_exceptions.md R141). -/
abbrev StepCause (c : Cause) : Prop :=
  c = .unrecognizedInstruction ∨ c = .stackUnderflow ∨ c = .outOfBoundsAccess

/-- The invariant of reachable states: `PC` and the return addresses stay in the range of 10_state.md R19, memory is in
canonical form (log 7), and cause 4 has not been raised (60_exceptions.md R146). -/
structure Inv (s : State) : Prop where
  pc_le : s.pc.toNat ≤ 0x1002
  stack_le : ∀ a ∈ s.stack, a.toNat ≤ 0x1000
  mem_wf : Memory.wf s.cfg s.mem
  cause_ne : ∀ a w, s.status ≠ .faulted .registerIndexOverflow a w

/-! ## Frames -/

/-- The parts of the state a frame can name. -/
inductive Part where
  | regs | i | pc | dt | st | stack | bytes | screen | key | status | draws
  deriving DecidableEq, Repr

/-- Every part of the state but the listed ones is as before; memory is read byte by byte, the framebuffer cell by
cell. The parameters never change. -/
structure SameBut (l : List Part) (s t : State) : Prop where
  regs : .regs ∉ l → ∀ j, t.V j = s.V j
  i : .i ∉ l → t.i = s.i
  pc : .pc ∉ l → t.pc = s.pc
  dt : .dt ∉ l → t.dt = s.dt
  st : .st ∉ l → t.st = s.st
  stack : .stack ∉ l → t.stack = s.stack
  bytes : .bytes ∉ l → ∀ a, t.byteAt a = s.byteAt a
  screen : .screen ∉ l → ∀ r c, Screen.cell t.fb r c = Screen.cell s.fb r c
  key : .key ∉ l → t.key = s.key
  status : .status ∉ l → t.status = s.status
  draws : .draws ∉ l → t.draws = s.draws
  cfg : t.cfg = s.cfg

/-! ## Who accesses what -/

/-- The registers an instruction writes when it completes (10_state.md R13, right column). -/
def Instr.writesV : Instr → Reg → Prop
  | .cls, _ => False
  | .ret, _ => False
  | .jpAddr _, _ => False
  | .callAddr _, _ => False
  | .seVxKk _ _, _ => False
  | .sneVxKk _ _, _ => False
  | .seVxVy _ _, _ => False
  | .ldVxKk x _, j => j = x
  | .addVxKk x _, j => j = x
  | .ldVxVy x _, j => j = x
  | .orVxVy x _, j => j = x
  | .andVxVy x _, j => j = x
  | .xorVxVy x _, j => j = x
  | .addVxVy x _, j => j = x ∨ j = VF
  | .subVxVy x _, j => j = x ∨ j = VF
  | .shrVxVy x _, j => j = x ∨ j = VF
  | .subnVxVy x _, j => j = x ∨ j = VF
  | .shlVxVy x _, j => j = x ∨ j = VF
  | .ldIAddr _, _ => False
  | .rndVxKk x _, j => j = x
  | .drwVxVyN _ _ _, j => j = VF
  | .ldVxDt x, j => j = x
  | .ldDtVx _, _ => False
  | .ldStVx _, _ => False
  | .addIVx _, _ => False
  | .ldBVx _, _ => False
  | .ldMemVx _, _ => False
  | .ldVxMem x, j => j ≤ x

/-- How many data bytes from `I` an instruction accesses (20_memory.md R49); 0 for an instruction that accesses none. -/
def Instr.dataCount : Instr → Nat
  | .cls => 0
  | .ret => 0
  | .jpAddr _ => 0
  | .callAddr _ => 0
  | .seVxKk _ _ => 0
  | .sneVxKk _ _ => 0
  | .seVxVy _ _ => 0
  | .ldVxKk _ _ => 0
  | .addVxKk _ _ => 0
  | .ldVxVy _ _ => 0
  | .orVxVy _ _ => 0
  | .andVxVy _ _ => 0
  | .xorVxVy _ _ => 0
  | .addVxVy _ _ => 0
  | .subVxVy _ _ => 0
  | .shrVxVy _ _ => 0
  | .subnVxVy _ _ => 0
  | .shlVxVy _ _ => 0
  | .ldIAddr _ => 0
  | .rndVxKk _ _ => 0
  | .drwVxVyN _ _ n => n.val
  | .ldVxDt _ => 0
  | .ldDtVx _ => 0
  | .ldStVx _ => 0
  | .addIVx _ => 0
  | .ldBVx _ => 3
  | .ldMemVx x => x.val + 1
  | .ldVxMem x => x.val + 1

/-- An instruction fetched at `a` (so that the execute stage sees `PC = a + 2`) takes the data-access fault
(60_exceptions.md R144): `fault_pc = a`, `info = max(I, 4096)`, and nothing but `STATUS` changes. -/
def TakesDataFault (i : Instr) (s : State) : Prop :=
  ∃ t info, exec i s = .next t ∧ info.toNat = max s.i.toNat 4096 ∧
    (∀ a, s.pc = a + 2 → t.status = .faulted .outOfBoundsAccess a info) ∧ SameBut [.status] s t

end Sys2Proof
end

