-- ==== Sys2Proof/WellFormed.lean ====
section
/-! DEFINITION. What is well formed. An `Instr` needs no check: the type of each operand is exactly its field's range
(30_encoding.md R63), so every term is well formed. What can be ill formed is a WORD (it selects no row of the opcode
table, R66, R67) and a program IMAGE (it is longer than `load` accepts, 70_reset_and_hazards.md R182). -/

namespace Sys2Proof

/-- A row of the opcode table: a word selects it exactly when `w AND mask = bits` (R66's `match` is `bits` here). -/
structure Row where
  mnemonic : String
  bits : Word
  mask : Word
  deriving DecidableEq, Repr

/-- R66: "`w` selects the row exactly when `w AND mask = match`". -/
def Row.selects (r : Row) (w : Word) : Bool := w &&& r.mask == r.bits

/-- R66, rows 1 to 9. -/
def opcodeTableLow : List Row :=
  [⟨"CLS", 0x00E0, 0xFFFF⟩, ⟨"RET", 0x00EE, 0xFFFF⟩, ⟨"JP_addr", 0x1000, 0xF000⟩,
   ⟨"CALL_addr", 0x2000, 0xF000⟩, ⟨"SE_Vx_kk", 0x3000, 0xF000⟩, ⟨"SNE_Vx_kk", 0x4000, 0xF000⟩,
   ⟨"SE_Vx_Vy", 0x5000, 0xF00F⟩, ⟨"LD_Vx_kk", 0x6000, 0xF000⟩, ⟨"ADD_Vx_kk", 0x7000, 0xF000⟩]

/-- R66, rows 10 to 18: family 8. -/
def opcodeTableAlu : List Row :=
  [⟨"LD_Vx_Vy", 0x8000, 0xF00F⟩, ⟨"OR_Vx_Vy", 0x8001, 0xF00F⟩, ⟨"AND_Vx_Vy", 0x8002, 0xF00F⟩,
   ⟨"XOR_Vx_Vy", 0x8003, 0xF00F⟩, ⟨"ADD_Vx_Vy", 0x8004, 0xF00F⟩, ⟨"SUB_Vx_Vy", 0x8005, 0xF00F⟩,
   ⟨"SHR_Vx_Vy", 0x8006, 0xF00F⟩, ⟨"SUBN_Vx_Vy", 0x8007, 0xF00F⟩, ⟨"SHL_Vx_Vy", 0x800E, 0xF00F⟩]

/-- R66, rows 19 to 28. -/
def opcodeTableHigh : List Row :=
  [⟨"LD_I_addr", 0xA000, 0xF000⟩, ⟨"RND_Vx_kk", 0xC000, 0xF000⟩, ⟨"DRW_Vx_Vy_n", 0xD000, 0xF000⟩,
   ⟨"LD_Vx_DT", 0xF007, 0xF0FF⟩, ⟨"LD_DT_Vx", 0xF015, 0xF0FF⟩, ⟨"LD_ST_Vx", 0xF018, 0xF0FF⟩,
   ⟨"ADD_I_Vx", 0xF01E, 0xF0FF⟩, ⟨"LD_B_Vx", 0xF033, 0xF0FF⟩, ⟨"LD__I__Vx", 0xF055, 0xF0FF⟩,
   ⟨"LD_Vx__I", 0xF065, 0xF0FF⟩]

/-- The 28 rows of R66, mnemonics as spec/opcode_table.json spells them. -/
def opcodeTable : List Row := opcodeTableLow ++ opcodeTableAlu ++ opcodeTableHigh

/-- A word is an instruction exactly when it selects a row; every other word is unrecognised (R67). -/
def wordWellFormed (w : Word) : Bool := opcodeTable.any (·.selects w)

/-- An image that `load` accepts (R182: "if `L <= 3584`"). -/
def imageWellFormed (bytes : List Byte) : Bool := bytes.length ≤ maxImage

/-- The mnemonic of an instruction's row. -/
def Instr.mnemonic : Instr → String
  | .cls => "CLS"
  | .ret => "RET"
  | .jpAddr _ => "JP_addr"
  | .callAddr _ => "CALL_addr"
  | .seVxKk _ _ => "SE_Vx_kk"
  | .sneVxKk _ _ => "SNE_Vx_kk"
  | .seVxVy _ _ => "SE_Vx_Vy"
  | .ldVxKk _ _ => "LD_Vx_kk"
  | .addVxKk _ _ => "ADD_Vx_kk"
  | .ldVxVy _ _ => "LD_Vx_Vy"
  | .orVxVy _ _ => "OR_Vx_Vy"
  | .andVxVy _ _ => "AND_Vx_Vy"
  | .xorVxVy _ _ => "XOR_Vx_Vy"
  | .addVxVy _ _ => "ADD_Vx_Vy"
  | .subVxVy _ _ => "SUB_Vx_Vy"
  | .shrVxVy _ _ => "SHR_Vx_Vy"
  | .subnVxVy _ _ => "SUBN_Vx_Vy"
  | .shlVxVy _ _ => "SHL_Vx_Vy"
  | .ldIAddr _ => "LD_I_addr"
  | .rndVxKk _ _ => "RND_Vx_kk"
  | .drwVxVyN _ _ _ => "DRW_Vx_Vy_n"
  | .ldVxDt _ => "LD_Vx_DT"
  | .ldDtVx _ => "LD_DT_Vx"
  | .ldStVx _ => "LD_ST_Vx"
  | .addIVx _ => "ADD_I_Vx"
  | .ldBVx _ => "LD_B_Vx"
  | .ldMemVx _ => "LD__I__Vx"
  | .ldVxMem _ => "LD_Vx__I"

end Sys2Proof
end

