-- ==== Sys2Proof/Certificates/Slice0/Obligations.lean ====
section
/-! DEFINITION. The statements for the provers. `exec i s` is the execute stage: it sees `s.pc = npc`, the address of
the next instruction, so `s.pc = a + 2` says that the instruction was fetched at `a` (30_encoding.md R64). -/

open Sys2Proof Sys2Proof.Machine

/-! ## Encoding -/

/-- Every instruction, with every operand at every value, decodes from its own word and from its own two bytes, whatever
bytes follow (30_encoding.md R65, R72). -/
def Obligations.DecodeOfEncodeIsSame : Prop :=
  ∀ (i : Instr) (rest : List Byte),
    decode (encode i) = .ok i ∧ decodeBytes (encodeBytes i ++ rest) = .ok (i, rest)

/-- Each recognised word has one meaning and is the word of that meaning: no bit of it is dropped (R65, R72). -/
def Obligations.EncodeOfDecodeIsSame : Prop :=
  ∀ (w : Word) (i : Instr), decode w = .ok i → encode i = w

/-- R72: the word of each instruction as a number, format by format, and the document's three examples as bytes. -/
def Obligations.EncodeFollowsFormats : Prop :=
  (encode .cls = 0x00E0#16 ∧ encode .ret = 0x00EE#16) ∧
  (∀ nnn : Addr,
    (encode (.jpAddr nnn)).toNat = 1 * 4096 + nnn.toNat ∧ (encode (.callAddr nnn)).toNat = 2 * 4096 + nnn.toNat ∧
    (encode (.ldIAddr nnn)).toNat = 10 * 4096 + nnn.toNat) ∧
  (∀ (x : Reg) (kk : Byte),
    (encode (.seVxKk x kk)).toNat = 3 * 4096 + x.val * 256 + kk.toNat ∧
    (encode (.sneVxKk x kk)).toNat = 4 * 4096 + x.val * 256 + kk.toNat ∧
    (encode (.ldVxKk x kk)).toNat = 6 * 4096 + x.val * 256 + kk.toNat ∧
    (encode (.addVxKk x kk)).toNat = 7 * 4096 + x.val * 256 + kk.toNat ∧
    (encode (.rndVxKk x kk)).toNat = 12 * 4096 + x.val * 256 + kk.toNat) ∧
  (∀ x y : Reg,
    (encode (.seVxVy x y)).toNat = 5 * 4096 + x.val * 256 + y.val * 16 + 0 ∧
    (encode (.ldVxVy x y)).toNat = 8 * 4096 + x.val * 256 + y.val * 16 + 0 ∧
    (encode (.orVxVy x y)).toNat = 8 * 4096 + x.val * 256 + y.val * 16 + 1 ∧
    (encode (.andVxVy x y)).toNat = 8 * 4096 + x.val * 256 + y.val * 16 + 2 ∧
    (encode (.xorVxVy x y)).toNat = 8 * 4096 + x.val * 256 + y.val * 16 + 3 ∧
    (encode (.addVxVy x y)).toNat = 8 * 4096 + x.val * 256 + y.val * 16 + 4 ∧
    (encode (.subVxVy x y)).toNat = 8 * 4096 + x.val * 256 + y.val * 16 + 5 ∧
    (encode (.shrVxVy x y)).toNat = 8 * 4096 + x.val * 256 + y.val * 16 + 6 ∧
    (encode (.subnVxVy x y)).toNat = 8 * 4096 + x.val * 256 + y.val * 16 + 7 ∧
    (encode (.shlVxVy x y)).toNat = 8 * 4096 + x.val * 256 + y.val * 16 + 14) ∧
  (∀ (x y : Reg) (n : Fin 16),
    (encode (.drwVxVyN x y n)).toNat = 0xD000 + x.val * 256 + y.val * 16 + n.val) ∧
  (∀ x : Reg,
    (encode (.ldVxDt x)).toNat = 0xF000 + x.val * 256 + 0x07 ∧ (encode (.ldDtVx x)).toNat = 0xF000 + x.val * 256 + 0x15 ∧
    (encode (.ldStVx x)).toNat = 0xF000 + x.val * 256 + 0x18 ∧ (encode (.addIVx x)).toNat = 0xF000 + x.val * 256 + 0x1E ∧
    (encode (.ldBVx x)).toNat = 0xF000 + x.val * 256 + 0x33 ∧ (encode (.ldMemVx x)).toNat = 0xF000 + x.val * 256 + 0x55 ∧
    (encode (.ldVxMem x)).toNat = 0xF000 + x.val * 256 + 0x65) ∧
  encodeBytes (.ldVxKk 0 5) = [0x60, 0x05] ∧ encodeBytes (.ldVxKk 1 3) = [0x61, 0x03] ∧
  encodeBytes (.addVxVy 0 1) = [0x80, 0x14]

/-- R66: the decoder answers the instruction of a row exactly when `w AND mask = match` for that row, and an
instruction at all exactly when some row of the 28 is selected. -/
def Obligations.DecodeAcceptsExactlyTheTable : Prop :=
  opcodeTable.length = 28 ∧
  ∀ w : Word,
    (∀ r ∈ opcodeTable, w &&& r.mask = r.bits ↔ ∃ i, decode w = .ok i ∧ i.mnemonic = r.mnemonic) ∧
    ((∃ i, decode w = .ok i) ↔ wordWellFormed w = true)

/-- The patterns of the opcode table are pairwise disjoint (R65): a word selects at most one row. -/
def Obligations.OpcodeRowsAreDisjoint : Prop :=
  ∀ (w : Word), ∀ r ∈ opcodeTable, ∀ q ∈ opcodeTable, r.selects w = true → q.selects w = true → r = q

/-- The unrecognised words, family by family (R67), and the decoder names the word it rejects. -/
def Obligations.UnrecognisedWordsByFamily : Prop :=
  ∀ w : Word,
    ((∃ e, decode w = .error e) ↔
      (w.toNat / 4096 = 0 ∧ w ≠ 0x00E0#16 ∧ w ≠ 0x00EE#16) ∨
      (w.toNat / 4096 = 5 ∧ w.toNat % 16 ≠ 0) ∨
      (w.toNat / 4096 = 8 ∧ w.toNat % 16 ∈ [0x8, 0x9, 0xA, 0xB, 0xC, 0xD, 0xF]) ∨
      w.toNat / 4096 = 9 ∨ w.toNat / 4096 = 0xB ∨ w.toNat / 4096 = 0xE ∨
      (w.toNat / 4096 = 0xF ∧ w.toNat % 256 ∉ [0x07, 0x15, 0x18, 0x1E, 0x33, 0x55, 0x65])) ∧
    ∀ e, decode w = .error e → e = .unrecognised w

/-- Words written out from the patterns of R66 and from 95_test_vectors.md decode to what they stand for. -/
def Obligations.SampleWordsDecode : Prop :=
  decode 0x00E0 = .ok .cls ∧ decode 0x1ABC = .ok (.jpAddr 0xABC) ∧ decode 0x6A01 = .ok (.ldVxKk 10 0x01) ∧
  decode 0x80FE = .ok (.shlVxVy 0 15) ∧ decode 0xD123 = .ok (.drwVxVyN 1 2 3) ∧ decode 0xF265 = .ok (.ldVxMem 2) ∧
  decode 0xF118 = .ok (.ldStVx 1) ∧ decode 0x9000 = .error (.unrecognised 0x9000) ∧
  decode 0x01E0 = .error (.unrecognised 0x01E0)

/-! ## The step cycle and faults -/

/-- R64, all of it: a machine that is not running is left as it is; a fetch past memory raises with `PC` unchanged; an
unrecognised word raises after `PC <- a + 2`; and where the two bytes at `PC` decode to `i`, the step IS `exec i` of the
state with `PC` moved past the instruction. -/
def Obligations.StepRunsDecodedInstruction : Prop :=
  ∀ s : State,
    (¬ Running s → step s = .next s) ∧
    (Running s → 4096 ≤ s.pc.toNat + 1 →
      ∃ t info, step s = .next t ∧ t.status = .faulted .outOfBoundsAccess s.pc info ∧ t.pc = s.pc) ∧
    (Running s → s.pc.toNat + 1 < 4096 → ∀ w i,
      w = wordOfBytes (s.byteAt s.pc.toNat) (s.byteAt (s.pc.toNat + 1)) →
      decode w = .ok i → step s = exec i (s.setPc (s.pc + 2))) ∧
    (Running s → s.pc.toNat + 1 < 4096 → ∀ w e,
      w = wordOfBytes (s.byteAt s.pc.toNat) (s.byteAt (s.pc.toNat + 1)) →
      decode w = .error e →
      ∃ t, step s = .next t ∧ t.status = .faulted .unrecognizedInstruction s.pc w ∧ t.pc = s.pc + 2)

/-- R46 and R145: a fetch at `PC >= 0xFFF` faults with `PC` not advanced, `fault_pc = a` and `info = max(a, 4096)`, and
changes nothing but `STATUS` (the spec's decision D6, log 10); any other fetch, at any alignment (D19), reads
`MEM[a] * 256 + MEM[a+1]`. -/
def Obligations.FetchReadsBigEndianOrFaults : Prop :=
  ∀ s : State,
    (Running s → 0xFFF ≤ s.pc.toNat →
      ∃ t info, step s = .next t ∧ t.status = .faulted .outOfBoundsAccess s.pc info ∧
        info.toNat = max s.pc.toNat 4096 ∧ SameBut [.status] s t) ∧
    (s.pc.toNat < 0xFFF →
      ∃ w, s.fetch = some w ∧
        w.toNat = (s.byteAt s.pc.toNat).toNat * 256 + (s.byteAt (s.pc.toNat + 1)).toNat)

/-- R142: a fetched word that matches no pattern faults after `PC` has been advanced; nothing else has changed. -/
def Obligations.UnrecognisedWordFaults : Prop :=
  ∀ (s : State) (w : Word), Running s → s.fetch = some w → wordWellFormed w = false →
    ∃ t, step s = .next t ∧ t.pc = s.pc + 2 ∧ t.status = .faulted .unrecognizedInstruction s.pc w ∧
      SameBut [.pc, .status] s t

/-- R151 (the spec's decision D20, log 10): while faulted, a step, a tick and the host's writes change nothing, no action
of a schedule but `reset` changes the machine, and `reset` makes it run again. -/
def Obligations.FaultedMachineIsFrozen : Prop :=
  ∀ m : System, ¬ Running m.state →
    step m.state = .next m.state ∧ m.state.tick = m.state ∧
    (∀ b, m.state.writeDt b = m.state ∧ m.state.writeSt b = m.state) ∧
    (∀ k b, m.state.writeKey k b = m.state) ∧
    (∀ e m', m.act e = .next m' → e ≠ .reset → m'.state = m.state) ∧
    ∃ m', m.act .reset = .next m' ∧ Running m'.state

/-- R149 (the spec's decision D5, log 10): a fault of a step is precise. Only `PC` and `STATUS` differ; `PC` is `a + 2`,
but for a fetch fault, where it is still `a`; `fault_pc` is the address of the instruction and the cause is 1, 2 or 3. -/
def Obligations.FaultsArePrecise : Prop :=
  ∀ s t : State, Running s → step s = .next t → ¬ Running t →
    SameBut [.pc, .status] s t ∧
    (t.pc = if 0xFFF ≤ s.pc.toNat then s.pc else s.pc + 2) ∧
    ∃ c info, t.status = .faulted c s.pc info ∧ StepCause c

/-- R144: a data access of an instruction faults exactly when one of its addresses is 4096 or more, whatever the
instruction. That then nothing is written, and which address is reported, are the spec's decisions D5 and D26 (log 10). -/
def Obligations.DataAccessFaultsExactlyOutOfBounds : Prop :=
  ∀ (i : Instr) (s : State), Running s →
    (1 ≤ i.dataCount ∧ 4096 ≤ s.i.toNat + (i.dataCount - 1) → TakesDataFault i s) ∧
    (∀ t a info, exec i s = .next t → t.status = .faulted .outOfBoundsAccess a info →
      1 ≤ i.dataCount ∧ 4096 ≤ s.i.toNat + (i.dataCount - 1))

/-- Nothing in this machine is undefined (93_implementation_defined.md): every instruction in every state, and every
step, answers a next state. -/
def Obligations.EveryInstructionAndStepAnswersNext : Prop :=
  (∀ i s, ∃ t, exec i s = .next t) ∧ ∀ s, ∃ t, step s = .next t

/-! ## Control flow -/

/-- R81 and R143: RET pops the top of the stack into `PC`; on an empty stack it faults with nothing popped. -/
def Obligations.RetPopsOrFaults : Prop :=
  ∀ s : State,
    (∀ a rest, s.stack = a :: rest →
      ∃ t, exec .ret s = .next t ∧ t.pc = a ∧ t.stack = rest ∧ SameBut [.pc, .stack] s t) ∧
    (s.stack = [] →
      ∃ t, exec .ret s = .next t ∧ (∀ a, s.pc = a + 2 → t.status = .faulted .stackUnderflow a 0) ∧
        SameBut [.status] s t)

/-- R82: JP sets `PC` to exactly `nnn`. -/
def Obligations.JumpSetsPc : Prop :=
  ∀ (nnn : Addr) (s : State),
    ∃ t, exec (.jpAddr nnn) s = .next t ∧ t.pc.toNat = nnn.toNat ∧ SameBut [.pc] s t

/-- R83: CALL pushes `npc`, the address after the CALL, and jumps; it never faults, however deep the stack. -/
def Obligations.CallPushesReturnAddress : Prop :=
  ∀ (nnn : Addr) (s : State),
    ∃ t, exec (.callAddr nnn) s = .next t ∧ t.stack = s.pc :: s.stack ∧ t.pc.toNat = nnn.toNat ∧
      SameBut [.pc, .stack] s t

/-- R84, R85, R86: the three skips add 2 to `PC` again exactly when their condition holds, and change nothing else. -/
def Obligations.SkipsCompareRegisters : Prop :=
  ∀ s : State,
    (∀ (x : Reg) (kk : Byte),
      ∃ t, exec (.seVxKk x kk) s = .next t ∧ t.pc = (if s.V x = kk then s.pc + 2 else s.pc) ∧ SameBut [.pc] s t) ∧
    (∀ (x : Reg) (kk : Byte),
      ∃ t, exec (.sneVxKk x kk) s = .next t ∧ t.pc = (if s.V x ≠ kk then s.pc + 2 else s.pc) ∧ SameBut [.pc] s t) ∧
    (∀ x y : Reg,
      ∃ t, exec (.seVxVy x y) s = .next t ∧ t.pc = (if s.V x = s.V y then s.pc + 2 else s.pc) ∧ SameBut [.pc] s t)

/-- E3 of 95_test_vectors.md: a RET in any state whose stack is the one a CALL left goes to the instruction after the
CALL and leaves the stack as it was before it. -/
def Obligations.CallThenRetReturns : Prop :=
  ∀ (nnn : Addr) (s t u : State), exec (.callAddr nnn) s = .next t → u.stack = t.stack →
    ∃ v, exec .ret u = .next v ∧ v.pc = s.pc ∧ v.stack = s.stack

/-- R87: after a step that does not fault `PC` is `npc`, `npc + 2`, the zero-extended `nnn` of the
fetched word or the popped value, and the
stack is the same, or has one more entry `npc`, or one entry less. -/
def Obligations.ControlTransferIsOneOfFour : Prop :=
  ∀ s t : State, Running s → step s = .next t → Running t →
    (t.pc = s.pc + 2 ∨ t.pc = s.pc + 2 + 2 ∨
      (∃ w, s.fetch = some w ∧ t.pc.toNat = w.toNat % 4096) ∨ ∃ rest, s.stack = t.pc :: rest) ∧
    (t.stack = s.stack ∨ t.stack = (s.pc + 2) :: s.stack ∨ ∃ a, s.stack = a :: t.stack)

/-! ## Registers, arithmetic, logic, shifts, random -/

/-- R91, R92, R93: the loads of a register, and the addition of an immediate, which writes no flag. -/
def Obligations.LoadsAndAddImmediate : Prop :=
  ∀ (s : State) (x : Reg),
    (∀ kk : Byte, ∃ t, exec (.ldVxKk x kk) s = .next t ∧ t.V x = kk ∧ (∀ j, j ≠ x → t.V j = s.V j) ∧
      SameBut [.regs] s t) ∧
    (∀ kk : Byte, ∃ t, exec (.addVxKk x kk) s = .next t ∧
      (t.V x).toNat = ((s.V x).toNat + kk.toNat) % 256 ∧ (∀ j, j ≠ x → t.V j = s.V j) ∧ SameBut [.regs] s t) ∧
    (∀ y : Reg, ∃ t, exec (.ldVxVy x y) s = .next t ∧ t.V x = s.V y ∧ (∀ j, j ≠ x → t.V j = s.V j) ∧
      SameBut [.regs] s t)

/-- R94, R95, R96: OR, AND, XOR bit by bit; `VF` is not written unless it is the destination. -/
def Obligations.BitwiseActsOnEachBit : Prop :=
  ∀ (s : State) (x y : Reg),
    (∃ t, exec (.orVxVy x y) s = .next t ∧
      (∀ k < 8, (t.V x).getLsbD k = ((s.V x).getLsbD k || (s.V y).getLsbD k)) ∧
      (∀ j, j ≠ x → t.V j = s.V j) ∧ SameBut [.regs] s t) ∧
    (∃ t, exec (.andVxVy x y) s = .next t ∧
      (∀ k < 8, (t.V x).getLsbD k = ((s.V x).getLsbD k && (s.V y).getLsbD k)) ∧
      (∀ j, j ≠ x → t.V j = s.V j) ∧ SameBut [.regs] s t) ∧
    (∃ t, exec (.xorVxVy x y) s = .next t ∧
      (∀ k < 8, (t.V x).getLsbD k = ((s.V x).getLsbD k ^^ (s.V y).getLsbD k)) ∧
      (∀ j, j ≠ x → t.V j = s.V j) ∧ SameBut [.regs] s t)

/-- R97: the sum modulo 256 and the carry, written last: with `x = 15` the carry stands and the sum is lost. -/
def Obligations.AddWritesSumThenCarry : Prop :=
  ∀ (s : State) (x y : Reg),
    ∃ t, exec (.addVxVy x y) s = .next t ∧
      (x ≠ VF → (t.V x).toNat = ((s.V x).toNat + (s.V y).toNat) % 256) ∧
      (t.V VF = if (s.V x).toNat + (s.V y).toNat > 255 then 1 else 0) ∧
      (∀ j, j ≠ x → j ≠ VF → t.V j = s.V j) ∧ SameBut [.regs] s t

/-- R98 and R100: the difference modulo 256 and not-borrow, written last; equal operands count as no borrow. -/
def Obligations.SubtractWritesDifferenceThenNotBorrow : Prop :=
  ∀ (s : State) (x y : Reg),
    (∃ t, exec (.subVxVy x y) s = .next t ∧
      (x ≠ VF → (t.V x).toNat = if (s.V x).toNat ≥ (s.V y).toNat then (s.V x).toNat - (s.V y).toNat
        else (s.V x).toNat + 256 - (s.V y).toNat) ∧
      (t.V VF = if (s.V x).toNat ≥ (s.V y).toNat then 1 else 0) ∧
      (∀ j, j ≠ x → j ≠ VF → t.V j = s.V j) ∧ SameBut [.regs] s t) ∧
    (∃ t, exec (.subnVxVy x y) s = .next t ∧
      (x ≠ VF → (t.V x).toNat = if (s.V y).toNat ≥ (s.V x).toNat then (s.V y).toNat - (s.V x).toNat
        else (s.V y).toNat + 256 - (s.V x).toNat) ∧
      (t.V VF = if (s.V y).toNat ≥ (s.V x).toNat then 1 else 0) ∧
      (∀ j, j ≠ x → j ≠ VF → t.V j = s.V j) ∧ SameBut [.regs] s t)

/-- R99 and R101: the source is `V[y]` as it was; the bit shifted out goes to `VF` first. That with `x = 15` the shifted
value stands, and with `y = 15` the operand is the old `VF`, is the spec's decision D9 (log 10). -/
def Obligations.ShiftsWriteBitThenResult : Prop :=
  ∀ (s : State) (x y : Reg),
    (∃ t, exec (.shrVxVy x y) s = .next t ∧ (t.V x).toNat = (s.V y).toNat / 2 ∧
      (x ≠ VF → t.V VF = if (s.V y).toNat % 2 = 1 then 1 else 0) ∧
      (∀ j, j ≠ x → j ≠ VF → t.V j = s.V j) ∧ SameBut [.regs] s t) ∧
    (∃ t, exec (.shlVxVy x y) s = .next t ∧ (t.V x).toNat = (s.V y).toNat * 2 % 256 ∧
      (x ≠ VF → t.V VF = if 128 ≤ (s.V y).toNat then 1 else 0) ∧
      (∀ j, j ≠ x → j ≠ VF → t.V j = s.V j) ∧ SameBut [.regs] s t)

/-- R104: the same register as source and destination, `x != 15`. -/
def Obligations.SameRegisterForms : Prop :=
  ∀ (s : State) (x : Reg), x ≠ VF →
    (∀ t, exec (.ldVxVy x x) s = .next t → ∀ j, t.V j = s.V j) ∧
    (∀ t, exec (.orVxVy x x) s = .next t → ∀ j, t.V j = s.V j) ∧
    (∀ t, exec (.andVxVy x x) s = .next t → ∀ j, t.V j = s.V j) ∧
    (∀ t, exec (.xorVxVy x x) s = .next t → t.V x = 0) ∧
    (∀ t, exec (.addVxVy x x) s = .next t →
      (t.V x).toNat = 2 * (s.V x).toNat % 256 ∧ t.V VF = if (s.V x).getLsbD 7 then 1 else 0) ∧
    (∀ t, exec (.subVxVy x x) s = .next t → t.V x = 0 ∧ t.V VF = 1) ∧
    (∀ t, exec (.subnVxVy x x) s = .next t → t.V x = 0 ∧ t.V VF = 1) ∧
    (∀ t, exec (.shrVxVy x x) s = .next t →
      (t.V x).toNat = (s.V x).toNat / 2 ∧ t.V VF = if (s.V x).getLsbD 0 then 1 else 0) ∧
    (∀ t, exec (.shlVxVy x x) s = .next t →
      (t.V x).toNat = 2 * (s.V x).toNat % 256 ∧ t.V VF = if (s.V x).getLsbD 7 then 1 else 0)

/-- R102, for every value of every draw: RND writes the byte drawn under the mask, writes no flag, and the next draw is a
new one. That draws are numbered by a counter of the state is the model's choice (log 3). -/
def Obligations.RandomByteIsMaskedDraw : Prop :=
  ∀ (s : State) (x : Reg) (kk : Byte),
    ∃ t, exec (.rndVxKk x kk) s = .next t ∧ t.V x = Config.drawByte s.draws &&& kk ∧ t.V x &&& ~~~kk = 0 ∧
      (kk = 0x00 → t.V x = 0) ∧ (kk = 0xFF → t.V x = Config.drawByte s.draws) ∧ t.draws = s.draws + 1 ∧
      (∀ j, j ≠ x → t.V j = s.V j) ∧ SameBut [.regs, .draws] s t

/-! ## Index, BCD, block transfers -/

/-- R111: `I` takes `nnn`, zero-extended, so that its bits 15 to 12 become 0; no flag is written and nothing faults. -/
def Obligations.IndexLoadSetsIndex : Prop :=
  ∀ (nnn : Addr) (s : State), ∃ t, exec (.ldIAddr nnn) s = .next t ∧ t.i.toNat = nnn.toNat ∧ SameBut [.i] s t

/-- R112: `I` takes the sum with a register; no flag is written and nothing faults. That the sum wraps at 16 bits is the
spec's decision D7 (log 10). -/
def Obligations.IndexAddIsSixteenBit : Prop :=
  ∀ (x : Reg) (s : State),
    ∃ t, exec (.addIVx x) s = .next t ∧ t.i.toNat = (s.i.toNat + (s.V x).toNat) % 65536 ∧ SameBut [.i] s t

/-- R113: the three decimal digits at `I`, `I + 1`, `I + 2`, every other byte as before; or the fault, nothing
written, when `I + 2 >= 4096`. -/
def Obligations.BcdStoreWritesThreeDigits : Prop :=
  ∀ (s : State) (x : Reg),
    (s.i.toNat + 2 < 4096 →
      ∃ t, exec (.ldBVx x) s = .next t ∧
        (t.byteAt s.i.toNat).toNat = (s.V x).toNat / 100 ∧
        (t.byteAt (s.i.toNat + 1)).toNat = (s.V x).toNat / 10 % 10 ∧
        (t.byteAt (s.i.toNat + 2)).toNat = (s.V x).toNat % 10 ∧
        (∀ a, a < s.i.toNat ∨ s.i.toNat + 3 ≤ a → t.byteAt a = s.byteAt a) ∧ SameBut [.bytes] s t) ∧
    (4096 ≤ s.i.toNat + 2 → TakesDataFault (.ldBVx x) s)

/-- R114: `V[0]` to `V[x]` at `I` to `I + x`, every other byte as before, `I` unchanged; or the fault, nothing written,
when `I + x >= 4096`. -/
def Obligations.StoreRegistersWritesBlock : Prop :=
  ∀ (s : State) (x : Reg),
    (s.i.toNat + x.val < 4096 →
      ∃ t, exec (.ldMemVx x) s = .next t ∧ (∀ j : Reg, j ≤ x → t.byteAt (s.i.toNat + j.val) = s.V j) ∧
        (∀ a, a < s.i.toNat ∨ s.i.toNat + x.val < a → t.byteAt a = s.byteAt a) ∧ SameBut [.bytes] s t) ∧
    (4096 ≤ s.i.toNat + x.val → TakesDataFault (.ldMemVx x) s)

/-- R115: `V[0]` to `V[x]` from `I` to `I + x`, the registers above `x` and everything else as before; or the fault, no
register written, when `I + x >= 4096`. -/
def Obligations.LoadRegistersReadsBlock : Prop :=
  ∀ (s : State) (x : Reg),
    (s.i.toNat + x.val < 4096 →
      ∃ t, exec (.ldVxMem x) s = .next t ∧ (∀ j : Reg, j ≤ x → t.V j = s.byteAt (s.i.toNat + j.val)) ∧
        (∀ j : Reg, x < j → t.V j = s.V j) ∧ SameBut [.regs] s t) ∧
    (4096 ≤ s.i.toNat + x.val → TakesDataFault (.ldVxMem x) s)

/-- R115 (E8 of 95_test_vectors.md): Fx55 then, whatever happened to the registers between, Fx65 with the same `I`, `x`
and memory gives back `V[0]` to `V[x]`. -/
def Obligations.BlockTransferRoundTrips : Prop :=
  ∀ (s t u v : State) (x : Reg), Running t → exec (.ldMemVx x) s = .next t →
    u.i = t.i → (∀ a, u.byteAt a = t.byteAt a) → exec (.ldVxMem x) u = .next v →
    ∀ j : Reg, j ≤ x → v.V j = s.V j

/-- 20_memory.md R54: bytes that Fx55 stores where the next instruction stands are what the very next fetch reads. -/
def Obligations.StoredInstructionIsFetchedNext : Prop :=
  ∀ (s t : State) (x : Reg), Running t → 1 ≤ x.val → s.i = s.pc → exec (.ldMemVx x) s = .next t →
    t.fetch = some (wordOfBytes (s.V 0) (s.V 1))

/-! ## Display -/

/-- R121: CLS turns every cell off and changes nothing else. -/
def Obligations.ClearTurnsEveryCellOff : Prop :=
  ∀ s : State, ∃ t, exec .cls s = .next t ∧ (∀ r c, Screen.cell t.fb r c = false) ∧ SameBut [.screen] s t

/-- R122 and R123, for a machine whose `DRAW_MODE` is `overwrite`: every target cell ends equal to its sprite bit, with
toroidal coordinates and the most significant bit leftmost, every other cell as before, `VF` 0; or the fault, nothing
drawn, when the sprite runs past 0xFFF. -/
def Obligations.DrawOverwritesTargetCells : Prop :=
  ∀ (s : State) (x y : Reg) (n : Fin 16), s.cfg.drawMode = .overwrite →
    (¬ (1 ≤ n.val ∧ 4096 ≤ s.i.toNat + n.val - 1) →
      ∃ t, exec (.drwVxVyN x y n) s = .next t ∧
        (∀ r < n.val, ∀ c < 8, ∀ (row : Fin 32) (col : Fin 64),
          row.val = ((s.V y).toNat + r) % 32 → col.val = ((s.V x).toNat + c) % 64 →
          Screen.cell t.fb row col = (s.byteAt (s.i.toNat + r)).getLsbD (7 - c)) ∧
        (∀ (row : Fin 32) (col : Fin 64),
          (∀ r < n.val, ∀ c < 8, ¬ (row.val = ((s.V y).toNat + r) % 32 ∧ col.val = ((s.V x).toNat + c) % 64)) →
          Screen.cell t.fb row col = Screen.cell s.fb row col) ∧
        t.V VF = 0 ∧ (∀ j, j ≠ VF → t.V j = s.V j) ∧ SameBut [.regs, .screen] s t) ∧
    (1 ≤ n.val ∧ 4096 ≤ s.i.toNat + n.val - 1 → TakesDataFault (.drwVxVyN x y n) s)

/-- R122 and R124, for a machine whose `DRAW_MODE` is `xor`: every target cell is exclusive-ored with its sprite bit
once, every other cell as before, and `VF` is 1 exactly when a target cell was on and its sprite bit 1; or the fault. -/
def Obligations.DrawXorsTargetCells : Prop :=
  ∀ (s : State) (x y : Reg) (n : Fin 16), s.cfg.drawMode = .xor →
    (¬ (1 ≤ n.val ∧ 4096 ≤ s.i.toNat + n.val - 1) →
      ∃ t, exec (.drwVxVyN x y n) s = .next t ∧
        (∀ r < n.val, ∀ c < 8, ∀ (row : Fin 32) (col : Fin 64),
          row.val = ((s.V y).toNat + r) % 32 → col.val = ((s.V x).toNat + c) % 64 →
          Screen.cell t.fb row col =
            (Screen.cell s.fb row col ^^ (s.byteAt (s.i.toNat + r)).getLsbD (7 - c))) ∧
        (∀ (row : Fin 32) (col : Fin 64),
          (∀ r < n.val, ∀ c < 8, ¬ (row.val = ((s.V y).toNat + r) % 32 ∧ col.val = ((s.V x).toNat + c) % 64)) →
          Screen.cell t.fb row col = Screen.cell s.fb row col) ∧
        (t.V VF = 0 ∨ t.V VF = 1) ∧
        (t.V VF = 1 ↔ ∃ r < n.val, ∃ c < 8, ∃ (row : Fin 32) (col : Fin 64),
          row.val = ((s.V y).toNat + r) % 32 ∧ col.val = ((s.V x).toNat + c) % 64 ∧
          Screen.cell s.fb row col = true ∧ (s.byteAt (s.i.toNat + r)).getLsbD (7 - c) = true) ∧
        (∀ j, j ≠ VF → t.V j = s.V j) ∧ SameBut [.regs, .screen] s t) ∧
    (1 ≤ n.val ∧ 4096 ≤ s.i.toNat + n.val - 1 → TakesDataFault (.drwVxVyN x y n) s)

/-- R125, both modes: with `n = 0` nothing is checked or drawn, whatever `I` is, and `VF <- 0`. -/
def Obligations.DrawOfNoRowsOnlyClearsFlag : Prop :=
  ∀ (s : State) (x y : Reg),
    ∃ t, exec (.drwVxVyN x y 0) s = .next t ∧ t.V VF = 0 ∧ (∀ j, j ≠ VF → t.V j = s.V j) ∧ SameBut [.regs] s t

/-! ## Timers, tick unit, host -/

/-- R130, R131, R132: the three moves between a register and a timer. -/
def Obligations.TimerMoves : Prop :=
  ∀ (s : State) (x : Reg),
    (∃ t, exec (.ldVxDt x) s = .next t ∧ t.V x = s.dt ∧ (∀ j, j ≠ x → t.V j = s.V j) ∧ SameBut [.regs] s t) ∧
    (∃ t, exec (.ldDtVx x) s = .next t ∧ t.dt = s.V x ∧ SameBut [.dt] s t) ∧
    (∃ t, exec (.ldStVx x) s = .next t ∧ t.st = s.V x ∧ SameBut [.st] s t)

/-- R155, R156: a tick of a running machine takes 1 from each nonzero timer, leaves a zero one at 0 and changes nothing
else. -/
def Obligations.TickCountsDown : Prop :=
  ∀ s : State, Running s →
    (s.tick.dt.toNat = if s.dt.toNat ≠ 0 then s.dt.toNat - 1 else 0) ∧
    (s.tick.st.toNat = if s.st.toNat ≠ 0 then s.st.toNat - 1 else 0) ∧ SameBut [.dt, .st] s s.tick

/-- R182 and R147: `load` copies the image to 0x200 and changes no other byte and nothing else; an image of more than
3584 bytes writes nothing and faults with its length, saturated at 0xFFFF (the spec's decision D13, log 10). -/
def Obligations.LoadCopiesImageOrFaults : Prop :=
  ∀ (s : State) (bytes : List Byte),
    (bytes.length ≤ 3584 →
      (∀ k (h : k < bytes.length), (s.load bytes).byteAt (0x200 + k) = bytes[k]) ∧
      (∀ a, a < 0x200 ∨ 0x200 + bytes.length ≤ a → (s.load bytes).byteAt a = s.byteAt a) ∧
      SameBut [.bytes] s (s.load bytes)) ∧
    (3584 < bytes.length →
      ∃ info, (s.load bytes).status = .faulted .loadOverflow 0x0200 info ∧ info.toNat = min bytes.length 0xFFFF ∧
        SameBut [.status] s (s.load bytes))

/-- R182 and R183 as the model counts the lifecycle (log 6): a `load` is accepted by a fresh running machine only, and
any other is refused by name: a second one, one after a step, one on a machine that is not running. Boot and `reset` make
a machine fresh, a load and a step end freshness, and no other action brings it back. -/
def Obligations.LoadOnlyOnceBeforeFirstStep : Prop :=
  System.boot.phase = .fresh ∧
  ∀ (m : System) (bytes : List Byte),
    (m.phase = .fresh ∧ Running m.state → m.act (.load bytes) = .next ⟨m.state.load bytes, .loaded⟩) ∧
    (¬ (m.phase = .fresh ∧ Running m.state) → m.act (.load bytes) = .refused .loadOutsideLifecycle) ∧
    (∃ m', m.act .reset = .next m' ∧ m'.phase = .fresh ∧ Running m'.state) ∧
    (∀ e m', m.act e = .next m' → m'.phase = .fresh → e = .reset ∨ (m.phase = .fresh ∧ e ≠ .step)) ∧
    (∀ m', m.act .step = .next m' → m'.phase = .started)

/-- R159, R160, R161, R158: the host's writes reach a running machine and only the timer or key named; the gate is on
exactly when `ST` is not 0 (the spec's decision D16); the snapshot lists the 2048 cells, cell `(r, c)` at `r * 64 + c`
(10_state.md R23, D28). -/
def Obligations.HostWritesAndSnapshot : Prop :=
  ∀ s : State,
    (Running s →
      (∀ b, (s.writeDt b).dt = b ∧ SameBut [.dt] s (s.writeDt b)) ∧
      (∀ b, (s.writeSt b).st = b ∧ SameBut [.st] s (s.writeSt b)) ∧
      (∀ k b, (s.writeKey k b).readKey k = b ∧ (∀ j, j ≠ k → (s.writeKey k b).readKey j = s.readKey j) ∧
        SameBut [.key] s (s.writeKey k b))) ∧
    (s.gate = true ↔ s.st.toNat ≠ 0) ∧
    s.snapshotFb.length = 2048 ∧
    ∀ (r : Fin 32) (c : Fin 64), s.snapshotFb[r.val * 64 + c.val]? = some (Screen.cell s.fb r c)

/-- R28 and R180: a reset may be given in every state; after it, and in the state after power-on, every piece of state has
the value of R28, with memory as the machine's own parameters fill it. The values of `STACK`, `MEM_FILL`, `KEY` and
`STATUS` are the spec's decisions D12, D10 and D4 (log 10). -/
def Obligations.ResetGivesEveryValue : Prop :=
  State.reset.cfg.memFill = 0x00 ∧ (∀ m : System, ∃ m', m.act .reset = .next m') ∧
  ∀ s : State, (s = State.reset ∨ ∃ m m' : System, m.act .reset = .next m' ∧ m'.state = s) →
    (∀ j, s.V j = 0x00) ∧ s.i = 0x0000 ∧ s.pc = 0x0200 ∧ s.dt = 0x00 ∧ s.st = 0x00 ∧ s.stack = [] ∧
    (∀ a (h : a < 80), s.byteAt a = s.cfg.font[a]) ∧ (∀ a, 80 ≤ a → s.byteAt a = s.cfg.memFill) ∧
    (∀ r c, Screen.cell s.fb r c = false) ∧ (∀ k, s.readKey k = false) ∧ Running s ∧ s.gate = false

/-! ## Rules of the whole machine -/

/-- 10_state.md R13, right column: an instruction leaves every register it does not list as written as it was. -/
def Obligations.RegistersWrittenOnlyByTable : Prop :=
  ∀ (i : Instr) (s t : State) (j : Reg), exec i s = .next t → ¬ i.writesV j → t.V j = s.V j

/-- R15, R20, R21, R23, R24, R11 and R116: each other part of the state is changed by its own instructions only. -/
def Obligations.StateWrittenOnlyByItsInstructions : Prop :=
  ∀ (i : Instr) (s t : State), exec i s = .next t →
    (t.i ≠ s.i → (∃ nnn, i = .ldIAddr nnn) ∨ ∃ x, i = .addIVx x) ∧
    (t.dt ≠ s.dt → ∃ x, i = .ldDtVx x) ∧
    (t.st ≠ s.st → ∃ x, i = .ldStVx x) ∧
    (t.stack ≠ s.stack → i = .ret ∨ ∃ nnn, i = .callAddr nnn) ∧
    (∀ a, t.byteAt a ≠ s.byteAt a → (∃ x, i = .ldBVx x) ∨ ∃ x, i = .ldMemVx x) ∧
    (∀ r c, Screen.cell t.fb r c ≠ Screen.cell s.fb r c → i = .cls ∨ ∃ x y n, i = .drwVxVyN x y n) ∧
    (t.draws ≠ s.draws → ∃ x kk, i = .rndVxKk x kk) ∧
    t.key = s.key ∧ t.cfg = s.cfg

/-- R24: no instruction reads the keypad. Whatever a key holds, a step does the same to everything else. -/
def Obligations.KeypadIsNeverRead : Prop :=
  ∀ (s t : State) (k : Fin 16) (b : Bool), step s = .next t → step (s.setKey k b) = .next (t.setKey k b)

/-- R20: no instruction reads `ST`. Two machines that differ only there differ only there after a step. -/
def Obligations.SoundTimerIsNeverRead : Prop :=
  ∀ (s t : State) (b : Byte), step s = .next t → ∃ c, step (s.setSt b) = .next (t.setSt c)

/-- A step keeps the invariant: the ranges of R19, the canonical memory (log 7), cause 4 never raised (R146). -/
def Obligations.StepKeepsInvariant : Prop :=
  ∀ s t : State, Inv s → step s = .next t → Inv t

/-- The invariant holds after reset. -/
def Obligations.ResetHasInvariant : Prop := Inv State.reset

/-- Every schedule of whole actions of the three agents, from any state with the invariant, keeps it (R157). -/
def Obligations.ScheduleKeepsInvariant : Prop :=
  ∀ (m m' : System) (es : List Event), Inv m.state → m.run es = .next m' → Inv m'.state

/-- R19: whatever the three agents do after boot, `PC <= 0x1002` and every return address is at most 0x1000. -/
def Obligations.ReachablePcIsInRange : Prop :=
  ∀ (m : System) (es : List Event), System.boot.run es = .next m →
    m.state.pc.toNat ≤ 0x1002 ∧ ∀ a ∈ m.state.stack, a.toNat ≤ 0x1000

/-- R11 and R102: no schedule changes the parameters or lowers the draw counter; and a draw is never given twice: where
a step of a schedule executes an RND, it takes the draw of the counter as it stands, and after that step and whatever
schedule follows it, across `reset` too, the counter is strictly larger. The counter is the model's own (log 3). -/
def Obligations.ParametersFixedAndDrawsFresh : Prop :=
  (∀ (m m' : System) (es : List Event), m.run es = .next m' →
    m'.state.cfg = m.state.cfg ∧ m.state.draws ≤ m'.state.draws) ∧
  ∀ (m m' m'' : System) (es : List Event) (w : Word) (x : Reg) (kk : Byte),
    Running m.state → m.state.fetch = some w → decode w = .ok (.rndVxKk x kk) →
    m.act .step = .next m' → m'.run es = .next m'' →
    m'.state.V x = Config.drawByte m.state.draws &&& kk ∧ m.state.draws < m''.state.draws

/-- A schedule without `load` events always runs to its end: refusals come from `load` alone (R182, log 6), and no action
faults outside `STATUS` (log 4). -/
def Obligations.SchedulesWithoutLoadRun : Prop :=
  ∀ (m : System) (es : List Event), (∀ bytes, .load bytes ∉ es) → ∃ m', m.run es = .next m'
end

