-- ==== Sys2Proof/Laws/Decode.lean ====
section
/-! SUPPORT. The fields of a packed word, as numbers and back, and the word of its fields (30_encoding.md R61, R62,
R72). -/

namespace Sys2Proof

@[simp] theorem ofNibble_toNibble (x : Fin 16) : ofNibble (toNibble x) = x := rfl
@[simp] theorem toNibble_ofNibble (b : BitVec 4) : toNibble (ofNibble b) = b := rfl
@[simp] theorem toNibble_toNat (x : Fin 16) : (toNibble x).toNat = x.val := rfl

/-! ## Fields as numbers (R61) -/

theorem fieldOp_toNat (w : Word) : (fieldOp w).toNat = w.toNat / 4096 := by
  have := w.isLt
  simp only [fieldOp, BitVec.extractLsb'_toNat, Nat.shiftRight_eq_div_pow]
  omega
theorem fieldX_toNat (w : Word) : (fieldX w).toNat = w.toNat / 256 % 16 := by
  simp only [fieldX, BitVec.extractLsb'_toNat, Nat.shiftRight_eq_div_pow]
theorem fieldY_toNat (w : Word) : (fieldY w).toNat = w.toNat / 16 % 16 := by
  simp only [fieldY, BitVec.extractLsb'_toNat, Nat.shiftRight_eq_div_pow]
theorem fieldN_toNat (w : Word) : (fieldN w).toNat = w.toNat % 16 := by
  simp [fieldN, BitVec.extractLsb'_toNat]
theorem fieldKK_toNat (w : Word) : (fieldKK w).toNat = w.toNat % 256 := by
  simp [fieldKK, BitVec.extractLsb'_toNat]
theorem fieldNNN_toNat (w : Word) : (fieldNNN w).toNat = w.toNat % 4096 := by
  simp [fieldNNN, BitVec.extractLsb'_toNat]

/-! ## Packed words as numbers -/

theorem packNNN_toNat (op : BitVec 4) (nnn : Addr) :
    (packNNN op nnn).toNat = op.toNat * 4096 + nnn.toNat := by
  have := nnn.isLt
  rw [packNNN, BitVec.toNat_append, ← Nat.shiftLeft_add_eq_or_of_lt (by omega), Nat.shiftLeft_eq]

theorem packXKK_toNat (op : BitVec 4) (x : Reg) (kk : Byte) :
    (packXKK op x kk).toNat = op.toNat * 4096 + x.val * 256 + kk.toNat := by
  have := kk.isLt
  have := x.isLt
  rw [packXKK, BitVec.toNat_append, ← Nat.shiftLeft_add_eq_or_of_lt (by omega), BitVec.toNat_append,
    ← Nat.shiftLeft_add_eq_or_of_lt (by rw [toNibble_toNat]; omega), Nat.shiftLeft_eq, Nat.shiftLeft_eq,
    toNibble_toNat]
  omega

theorem packNibbles_toNat (a b c d : BitVec 4) :
    (packNibbles a b c d).toNat = a.toNat * 4096 + b.toNat * 256 + c.toNat * 16 + d.toNat := by
  have := b.isLt
  have := c.isLt
  have := d.isLt
  rw [packNibbles, BitVec.toNat_append, ← Nat.shiftLeft_add_eq_or_of_lt (by omega), BitVec.toNat_append,
    ← Nat.shiftLeft_add_eq_or_of_lt (by omega), BitVec.toNat_append,
    ← Nat.shiftLeft_add_eq_or_of_lt (by omega), Nat.shiftLeft_eq, Nat.shiftLeft_eq, Nat.shiftLeft_eq]
  omega

/-! ## Fields of packed words -/

@[simp] theorem fieldOp_packNNN (op : BitVec 4) (nnn : Addr) : fieldOp (packNNN op nnn) = op := by
  have := nnn.isLt
  apply BitVec.eq_of_toNat_eq
  rw [fieldOp_toNat, packNNN_toNat]
  omega
@[simp] theorem fieldNNN_packNNN (op : BitVec 4) (nnn : Addr) : fieldNNN (packNNN op nnn) = nnn := by
  have := nnn.isLt
  apply BitVec.eq_of_toNat_eq
  rw [fieldNNN_toNat, packNNN_toNat]
  omega

@[simp] theorem fieldOp_packXKK (op : BitVec 4) (x : Reg) (kk : Byte) : fieldOp (packXKK op x kk) = op := by
  have := kk.isLt
  have := x.isLt
  apply BitVec.eq_of_toNat_eq
  rw [fieldOp_toNat, packXKK_toNat]
  omega
@[simp] theorem fieldX_packXKK (op : BitVec 4) (x : Reg) (kk : Byte) :
    fieldX (packXKK op x kk) = toNibble x := by
  have := kk.isLt
  have := x.isLt
  apply BitVec.eq_of_toNat_eq
  rw [fieldX_toNat, packXKK_toNat, toNibble_toNat]
  omega
@[simp] theorem fieldKK_packXKK (op : BitVec 4) (x : Reg) (kk : Byte) : fieldKK (packXKK op x kk) = kk := by
  have := kk.isLt
  apply BitVec.eq_of_toNat_eq
  rw [fieldKK_toNat, packXKK_toNat]
  omega

@[simp] theorem fieldOp_packNibbles (a b c d : BitVec 4) : fieldOp (packNibbles a b c d) = a := by
  have := b.isLt
  have := c.isLt
  have := d.isLt
  apply BitVec.eq_of_toNat_eq
  rw [fieldOp_toNat, packNibbles_toNat]
  omega
@[simp] theorem fieldX_packNibbles (a b c d : BitVec 4) : fieldX (packNibbles a b c d) = b := by
  have := b.isLt
  have := c.isLt
  have := d.isLt
  apply BitVec.eq_of_toNat_eq
  rw [fieldX_toNat, packNibbles_toNat]
  omega
@[simp] theorem fieldY_packNibbles (a b c d : BitVec 4) : fieldY (packNibbles a b c d) = c := by
  have := c.isLt
  have := d.isLt
  apply BitVec.eq_of_toNat_eq
  rw [fieldY_toNat, packNibbles_toNat]
  omega
@[simp] theorem fieldN_packNibbles (a b c d : BitVec 4) : fieldN (packNibbles a b c d) = d := by
  have := d.isLt
  apply BitVec.eq_of_toNat_eq
  rw [fieldN_toNat, packNibbles_toNat]
  omega

@[simp] theorem fieldOp_packXY (op : BitVec 4) (x y : Reg) (n : BitVec 4) : fieldOp (packXY op x y n) = op :=
  fieldOp_packNibbles ..
@[simp] theorem fieldX_packXY (op : BitVec 4) (x y : Reg) (n : BitVec 4) : fieldX (packXY op x y n) = toNibble x :=
  fieldX_packNibbles ..
@[simp] theorem fieldY_packXY (op : BitVec 4) (x y : Reg) (n : BitVec 4) : fieldY (packXY op x y n) = toNibble y :=
  fieldY_packNibbles ..
@[simp] theorem fieldN_packXY (op : BitVec 4) (x y : Reg) (n : BitVec 4) : fieldN (packXY op x y n) = n :=
  fieldN_packNibbles ..

@[simp] theorem fieldOp_packXF (x : Reg) (kk : Byte) : fieldOp (packXF x kk) = 15#4 := fieldOp_packXKK ..
@[simp] theorem fieldX_packXF (x : Reg) (kk : Byte) : fieldX (packXF x kk) = toNibble x := fieldX_packXKK ..
@[simp] theorem fieldKK_packXF (x : Reg) (kk : Byte) : fieldKK (packXF x kk) = kk := fieldKK_packXKK ..

/-! ## A word is the pack of its fields -/

theorem packNNN_fields (w : Word) : packNNN (fieldOp w) (fieldNNN w) = w := by
  apply BitVec.eq_of_toNat_eq
  rw [packNNN_toNat, fieldOp_toNat, fieldNNN_toNat]
  omega

theorem packXKK_fields (w : Word) : packXKK (fieldOp w) (ofNibble (fieldX w)) (fieldKK w) = w := by
  apply BitVec.eq_of_toNat_eq
  have : (ofNibble (fieldX w)).val = w.toNat / 256 % 16 := fieldX_toNat w
  rw [packXKK_toNat, fieldOp_toNat, fieldKK_toNat, this]
  omega

theorem packXY_fields (w : Word) :
    packXY (fieldOp w) (ofNibble (fieldX w)) (ofNibble (fieldY w)) (fieldN w) = w := by
  apply BitVec.eq_of_toNat_eq
  rw [packXY, packNibbles_toNat, toNibble_ofNibble, toNibble_ofNibble, fieldOp_toNat, fieldX_toNat, fieldY_toNat,
    fieldN_toNat]
  omega

/-- A word is its four nibbles. -/
theorem word_ext {v w : Word} (ho : fieldOp v = fieldOp w) (hx : fieldX v = fieldX w) (hy : fieldY v = fieldY w)
    (hn : fieldN v = fieldN w) : v = w := by
  rw [← packXY_fields v, ← packXY_fields w, ho, hx, hy, hn]

theorem fieldKK_eq_iff {v w : Word} : fieldKK v = fieldKK w ↔ fieldY v = fieldY w ∧ fieldN v = fieldN w := by
  simp only [← BitVec.toNat_inj, fieldKK_toNat, fieldY_toNat, fieldN_toNat]
  omega

/-! ## What the masks of the opcode table keep (R66) -/

theorem fieldOp_and (v w : Word) : fieldOp (v &&& w) = fieldOp v &&& fieldOp w := BitVec.extractLsb'_and
theorem fieldX_and (v w : Word) : fieldX (v &&& w) = fieldX v &&& fieldX w := BitVec.extractLsb'_and
theorem fieldY_and (v w : Word) : fieldY (v &&& w) = fieldY v &&& fieldY w := BitVec.extractLsb'_and
theorem fieldN_and (v w : Word) : fieldN (v &&& w) = fieldN v &&& fieldN w := BitVec.extractLsb'_and

theorem nibble_and_15 (b : BitVec 4) : b &&& 15#4 = b := BitVec.and_allOnes

/-- Mask `F000` keeps the family nibble. -/
theorem mask_F000 (w b : Word) (hx : fieldX b = 0#4) (hy : fieldY b = 0#4) (hn : fieldN b = 0#4) :
    w &&& 0xF000#16 = b ↔ fieldOp w = fieldOp b := by
  have e : fieldOp 0xF000#16 = 15#4 ∧ fieldX 0xF000#16 = 0#4 ∧ fieldY 0xF000#16 = 0#4 ∧ fieldN 0xF000#16 = 0#4 := by
    decide
  constructor
  · rintro rfl
    rw [fieldOp_and, e.1, nibble_and_15]
  · intro h
    apply word_ext
    · rw [fieldOp_and, e.1, nibble_and_15, h]
    · rw [fieldX_and, e.2.1, BitVec.and_zero, hx]
    · rw [fieldY_and, e.2.2.1, BitVec.and_zero, hy]
    · rw [fieldN_and, e.2.2.2, BitVec.and_zero, hn]

/-- Mask `F00F` keeps the family and the sub-opcode. -/
theorem mask_F00F (w b : Word) (hx : fieldX b = 0#4) (hy : fieldY b = 0#4) :
    w &&& 0xF00F#16 = b ↔ fieldOp w = fieldOp b ∧ fieldN w = fieldN b := by
  have e : fieldOp 0xF00F#16 = 15#4 ∧ fieldX 0xF00F#16 = 0#4 ∧ fieldY 0xF00F#16 = 0#4 ∧ fieldN 0xF00F#16 = 15#4 := by
    decide
  constructor
  · rintro rfl
    rw [fieldOp_and, fieldN_and, e.1, e.2.2.2, nibble_and_15, nibble_and_15]
    exact ⟨rfl, rfl⟩
  · rintro ⟨h, h'⟩
    apply word_ext
    · rw [fieldOp_and, e.1, nibble_and_15, h]
    · rw [fieldX_and, e.2.1, BitVec.and_zero, hx]
    · rw [fieldY_and, e.2.2.1, BitVec.and_zero, hy]
    · rw [fieldN_and, e.2.2.2, nibble_and_15, h']

/-- Mask `F0FF` keeps the family and the low byte. -/
theorem mask_F0FF (w b : Word) (hx : fieldX b = 0#4) :
    w &&& 0xF0FF#16 = b ↔ fieldOp w = fieldOp b ∧ fieldKK w = fieldKK b := by
  have e : fieldOp 0xF0FF#16 = 15#4 ∧ fieldX 0xF0FF#16 = 0#4 ∧ fieldY 0xF0FF#16 = 15#4 ∧ fieldN 0xF0FF#16 = 15#4 := by
    decide
  constructor
  · rintro rfl
    rw [fieldKK_eq_iff, fieldOp_and, fieldY_and, fieldN_and, e.1, e.2.2.1, e.2.2.2, nibble_and_15, nibble_and_15,
      nibble_and_15]
    exact ⟨rfl, rfl, rfl⟩
  · rintro ⟨h, h'⟩
    rw [fieldKK_eq_iff] at h'
    apply word_ext
    · rw [fieldOp_and, e.1, nibble_and_15, h]
    · rw [fieldX_and, e.2.1, BitVec.and_zero, hx]
    · rw [fieldY_and, e.2.2.1, nibble_and_15, h'.1]
    · rw [fieldN_and, e.2.2.2, nibble_and_15, h'.2]

end Sys2Proof
end

