-- ==== Sys2Proof/Laws/Memory.lean ====
section
/-! SUPPORT. Reads after writes of bytes, and the canonical form that every write keeps. -/

namespace Sys2Proof.Machine

/-! ## Read after write -/

theorem Memory.find_put (m : Memory) (a : Nat) (b : Byte) (d : Nat) :
    Memory.find (Memory.put a b m) d = if d = a then some b else Memory.find m d := by
  induction m with
  | nil => simp [Memory.put, Memory.find]
  | cons p rest ih =>
    obtain ⟨k, x⟩ := p
    simp only [Memory.put]
    split
    · simp [Memory.find]
    · split
      · subst_vars
        simp only [Memory.find]
        split <;> rfl
      · simp only [Memory.find, ih]
        split <;> split <;> first | rfl | omega

theorem Memory.find_drop (m : Memory) (a d : Nat) :
    Memory.find (Memory.drop a m) d = if d = a then none else Memory.find m d := by
  induction m with
  | nil => simp [Memory.drop, Memory.find]
  | cons p rest ih =>
    obtain ⟨k, x⟩ := p
    simp only [Memory.drop]
    split
    · rw [ih]
      simp only [Memory.find]
      split <;> [rfl; (split <;> [omega; rfl])]
    · simp only [Memory.find, ih]
      split <;> split <;> first | rfl | omega

/-- A byte reads as the last value written to it, and a write changes no other byte (R44, R50). -/
theorem Memory.peek_poke (c : Config) (m : Memory) (a : Nat) (b : Byte) (d : Nat) :
    Memory.peek c (Memory.poke c m a b) d = if d = a then b else Memory.peek c m d := by
  unfold Memory.peek Memory.poke
  split_ifs with hb hd hd
  · simp [Memory.find_drop, hd, hb]
  · simp [Memory.find_drop, hd]
  · simp [Memory.find_put, hd]
  · simp [Memory.find_put, hd]

/-- Bytes stored from `a` read back in place, every other byte reads as before. -/
theorem Memory.peek_pokeBytes (c : Config) (m : Memory) (a : Nat) (bs : List Byte) (d : Nat) :
    Memory.peek c (Memory.pokeBytes c m a bs) d =
      if h : a ≤ d ∧ d - a < bs.length then bs[d - a]'h.2 else Memory.peek c m d := by
  induction bs generalizing m a with
  | nil => simp [Memory.pokeBytes]
  | cons b bs ih =>
    rw [Memory.pokeBytes, ih]
    by_cases h1 : a + 1 ≤ d ∧ d - (a + 1) < bs.length
    · have h2 : a ≤ d ∧ d - a < (b :: bs).length := by simp; omega
      have h3 : d - a = (d - (a + 1)) + 1 := by omega
      rw [dif_pos h1, dif_pos h2]
      simp [h3]
    · rw [dif_neg h1, Memory.peek_poke]
      by_cases h2 : a ≤ d ∧ d - a < (b :: bs).length
      · have h3 : d = a := by simp at h2; omega
        subst h3
        simp
      · rw [dif_neg h2, if_neg]
        rintro rfl
        simp at h2

/-- The bytes read from `a` are the bytes there, in order. -/
theorem Memory.getElem?_peekBytes (c : Config) (m : Memory) (a n k : Nat) :
    (Memory.peekBytes c m a n)[k]? = if k < n then some (Memory.peek c m (a + k)) else none := by
  induction n generalizing a k with
  | zero => simp [Memory.peekBytes]
  | succ n ih =>
    cases k with
    | zero => simp [Memory.peekBytes]
    | succ k => simp [Memory.peekBytes, ih, Nat.add_assoc, Nat.add_comm 1 k]

@[simp] theorem Memory.length_peekBytes (c : Config) (m : Memory) (a n : Nat) :
    (Memory.peekBytes c m a n).length = n := by
  induction n generalizing a with
  | zero => rfl
  | succ n ih => simp [Memory.peekBytes, ih]

@[simp] theorem Memory.getElem_peekBytes (c : Config) (m : Memory) (a n k : Nat)
    (h : k < (Memory.peekBytes c m a n).length) :
    (Memory.peekBytes c m a n)[k] = Memory.peek c m (a + k) := by
  have hk : k < n := by simpa using h
  have := Memory.getElem?_peekBytes c m a n k
  rw [List.getElem?_eq_getElem h, if_pos hk] at this
  exact Option.some.inj this

/-! ## The canonical form -/

theorem Memory.wf_nil (c : Config) : Memory.wf c [] := ⟨.nil, fun _ hp => nomatch hp⟩

theorem Memory.mem_put {a : Nat} {b : Byte} {m : Memory} {p : Host.Cell} (h : p ∈ Memory.put a b m) :
    p = (a, b) ∨ p ∈ m := by
  induction m with
  | nil => simpa [Memory.put] using h
  | cons q rest ih =>
    obtain ⟨k, x⟩ := q
    simp only [Memory.put] at h
    split at h
    · simpa using h
    · split at h
      · rcases List.mem_cons.1 h with h | h <;> simp [h]
      · rcases List.mem_cons.1 h with h | h
        · simp [h]
        · rcases ih h with h | h <;> simp [h]

theorem Memory.mem_drop {a : Nat} {m : Memory} {p : Host.Cell} (h : p ∈ Memory.drop a m) : p ∈ m := by
  induction m with
  | nil => simp [Memory.drop] at h
  | cons q rest ih =>
    obtain ⟨k, x⟩ := q
    simp only [Memory.drop] at h
    split at h
    · exact List.mem_cons_of_mem _ (ih h)
    · rcases List.mem_cons.1 h with h | h
      · simp [h]
      · exact List.mem_cons_of_mem _ (ih h)

theorem Memory.pairwise_put {a : Nat} {b : Byte} {m : Memory}
    (h : m.Pairwise fun p q => p.1 < q.1) : (Memory.put a b m).Pairwise fun p q => p.1 < q.1 := by
  induction m with
  | nil => simp [Memory.put]
  | cons q rest ih =>
    obtain ⟨k, x⟩ := q
    have hk : ∀ {p}, p ∈ rest → k < p.1 := fun hp => List.rel_of_pairwise_cons h hp
    simp only [Memory.put]
    split
    · rename_i hlt
      refine List.pairwise_cons.2 ⟨fun p hp => ?_, h⟩
      rcases List.mem_cons.1 hp with rfl | hp
      · exact hlt
      · exact Nat.lt_trans hlt (hk hp)
    · split
      · subst_vars
        exact List.pairwise_cons.2 ⟨fun p hp => hk hp, h.of_cons⟩
      · refine List.pairwise_cons.2 ⟨fun p hp => ?_, ih h.of_cons⟩
        rcases Memory.mem_put hp with rfl | hp
        · show k < a
          omega
        · exact hk hp

theorem Memory.pairwise_drop {a : Nat} {m : Memory} (h : m.Pairwise fun p q => p.1 < q.1) :
    (Memory.drop a m).Pairwise fun p q => p.1 < q.1 := by
  induction m with
  | nil => simp [Memory.drop]
  | cons q rest ih =>
    obtain ⟨k, x⟩ := q
    simp only [Memory.drop]
    split
    · exact ih h.of_cons
    · exact List.pairwise_cons.2
        ⟨fun p hp => List.rel_of_pairwise_cons h (Memory.mem_drop hp), ih h.of_cons⟩

/-- Writing one byte of `MEM` keeps the canonical form. -/
theorem Memory.wf_poke {c : Config} {m : Memory} (h : Memory.wf c m) {a : Nat} (ha : a < 4096) (b : Byte) :
    Memory.wf c (Memory.poke c m a b) := by
  unfold Memory.poke
  split
  · exact ⟨Memory.pairwise_drop h.1, fun p hp => h.2 p (Memory.mem_drop hp)⟩
  · rename_i hb
    refine ⟨Memory.pairwise_put h.1, fun p hp => ?_⟩
    rcases Memory.mem_put hp with rfl | hp
    · exact ⟨ha, hb⟩
    · exact h.2 p hp

/-- Storing bytes inside `MEM` keeps the canonical form. -/
theorem Memory.wf_pokeBytes {c : Config} {m : Memory} (h : Memory.wf c m) {a : Nat} {bs : List Byte}
    (ha : a + bs.length ≤ 4096) : Memory.wf c (Memory.pokeBytes c m a bs) := by
  induction bs generalizing m a with
  | nil => exact h
  | cons b bs ih =>
    simp only [List.length_cons] at ha
    exact ih (Memory.wf_poke h (by omega) b) (by omega)

/-! ## Equal reads are equal memories -/

theorem Memory.find_eq_none_of_lt {m : Memory} {a : Nat} (h : ∀ p ∈ m, a < p.1) : Memory.find m a = none := by
  induction m with
  | nil => rfl
  | cons q rest ih =>
    obtain ⟨k, x⟩ := q
    have hk : a < k := h (k, x) (by simp)
    rw [Memory.find, if_neg (by omega)]
    exact ih fun p hp => h p (List.mem_cons_of_mem _ hp)

theorem Memory.peek_ne_unlisted {c : Config} {m : Memory} (h : Memory.wf c m) {p : Host.Cell} (hp : p ∈ m) :
    Memory.find m p.1 = some p.2 := by
  induction m with
  | nil => simp at hp
  | cons q rest ih =>
    obtain ⟨k, x⟩ := q
    rcases List.mem_cons.1 hp with rfl | hp
    · simp [Memory.find]
    · have hk : k < p.1 := List.rel_of_pairwise_cons h.1 hp
      rw [Memory.find, if_neg (by omega)]
      exact ih ⟨h.1.of_cons, fun r hr => h.2 r (List.mem_cons_of_mem _ hr)⟩ hp

/-- The form is canonical: two memories in it that read alike everywhere are the same data. -/
theorem Memory.eq_of_peek_eq {c : Config} {m n : Memory} (hm : Memory.wf c m) (hn : Memory.wf c n)
    (h : ∀ a, Memory.peek c m a = Memory.peek c n a) : m = n := by
  have key : ∀ {m n : Memory}, Memory.wf c m → Memory.wf c n →
      (∀ a, Memory.peek c m a = Memory.peek c n a) → ∀ p ∈ m, p ∈ n := by
    intro m n hm hn h p hp
    have h1 : Memory.peek c m p.1 = p.2 := by rw [Memory.peek, Memory.peek_ne_unlisted hm hp]
    have h2 : Memory.peek c n p.1 = p.2 := (h p.1).symm.trans h1
    have h3 : ∀ n : Memory, Memory.find n p.1 = some p.2 → p ∈ n := by
      intro n
      induction n with
      | nil => simp [Memory.find]
      | cons q rest ih =>
        obtain ⟨k, x⟩ := q
        rw [Memory.find]
        split
        · intro he
          have : p = (k, x) := Prod.ext ‹_› (by simpa using he.symm)
          simp [this]
        · intro he
          exact List.mem_cons_of_mem _ (ih he)
    apply h3
    rw [Memory.peek] at h2
    split at h2
    · rw [← h2]; assumption
    · exact absurd h2.symm (hm.2 p hp).2
  have hnd : ∀ {m : Memory}, Memory.wf c m → m.Pairwise (fun p q => p.1 < q.1) := fun h => h.1
  refine List.Perm.eq_of_pairwise (le := fun p q => p.1 < q.1) ?_ (hnd hm) (hnd hn) ?_
  · intro a b _ _ h1 h2
    exact absurd (Nat.lt_trans h1 h2) (Nat.lt_irrefl _)
  · have nd : ∀ {m : Memory}, Memory.wf c m → m.Nodup := fun {m} h =>
      h.1.imp fun {p q} hpq he => by rw [he] at hpq; exact Nat.lt_irrefl _ hpq
    exact (List.perm_ext_iff_of_nodup (nd hm) (nd hn)).2 fun p =>
      ⟨key hm hn h p, key hn hm (fun a => (h a).symm) p⟩

end Sys2Proof.Machine
end

