-- ==== Sys2Proof/Laws/Ops.lean ====
section
/-! SUPPORT. One lemma per shared operation: what it does, field by field, and its cases. Provers cite these and do not
unfold the operations. -/

namespace Sys2Proof.Machine

/-! ## Result and flag, in both orders (41_arith_logic.md R90) -/

@[simp] theorem State.writeResultThenFlag_i (s : State) (x : Reg) (r f : Byte) : (s.writeResultThenFlag x r f).i = s.i := rfl
@[simp] theorem State.writeResultThenFlag_pc (s : State) (x : Reg) (r f : Byte) : (s.writeResultThenFlag x r f).pc = s.pc := rfl
@[simp] theorem State.writeResultThenFlag_dt (s : State) (x : Reg) (r f : Byte) : (s.writeResultThenFlag x r f).dt = s.dt := rfl
@[simp] theorem State.writeResultThenFlag_st (s : State) (x : Reg) (r f : Byte) : (s.writeResultThenFlag x r f).st = s.st := rfl
@[simp] theorem State.writeResultThenFlag_stack (s : State) (x : Reg) (r f : Byte) : (s.writeResultThenFlag x r f).stack = s.stack := rfl
@[simp] theorem State.writeResultThenFlag_mem (s : State) (x : Reg) (r f : Byte) : (s.writeResultThenFlag x r f).mem = s.mem := rfl
@[simp] theorem State.writeResultThenFlag_fb (s : State) (x : Reg) (r f : Byte) : (s.writeResultThenFlag x r f).fb = s.fb := rfl
@[simp] theorem State.writeResultThenFlag_key (s : State) (x : Reg) (r f : Byte) : (s.writeResultThenFlag x r f).key = s.key := rfl
@[simp] theorem State.writeResultThenFlag_status (s : State) (x : Reg) (r f : Byte) : (s.writeResultThenFlag x r f).status = s.status := rfl
@[simp] theorem State.writeResultThenFlag_cfg (s : State) (x : Reg) (r f : Byte) : (s.writeResultThenFlag x r f).cfg = s.cfg := rfl
@[simp] theorem State.writeResultThenFlag_draws (s : State) (x : Reg) (r f : Byte) : (s.writeResultThenFlag x r f).draws = s.draws := rfl
@[simp] theorem State.writeResultThenFlag_byteAt (s : State) (x : Reg) (r f : Byte) (d : Nat) : (s.writeResultThenFlag x r f).byteAt d = s.byteAt d := rfl

/-- With `x = 15` the flag stands. -/
theorem State.writeResultThenFlag_V (s : State) (x : Reg) (r f : Byte) (j : Reg) :
    (s.writeResultThenFlag x r f).V j = if j = VF then f else if j = x then r else s.V j := by
  simp [State.writeResultThenFlag]

@[simp] theorem State.writeFlagThenResult_i (s : State) (x : Reg) (f r : Byte) : (s.writeFlagThenResult x f r).i = s.i := rfl
@[simp] theorem State.writeFlagThenResult_pc (s : State) (x : Reg) (f r : Byte) : (s.writeFlagThenResult x f r).pc = s.pc := rfl
@[simp] theorem State.writeFlagThenResult_dt (s : State) (x : Reg) (f r : Byte) : (s.writeFlagThenResult x f r).dt = s.dt := rfl
@[simp] theorem State.writeFlagThenResult_st (s : State) (x : Reg) (f r : Byte) : (s.writeFlagThenResult x f r).st = s.st := rfl
@[simp] theorem State.writeFlagThenResult_stack (s : State) (x : Reg) (f r : Byte) : (s.writeFlagThenResult x f r).stack = s.stack := rfl
@[simp] theorem State.writeFlagThenResult_mem (s : State) (x : Reg) (f r : Byte) : (s.writeFlagThenResult x f r).mem = s.mem := rfl
@[simp] theorem State.writeFlagThenResult_fb (s : State) (x : Reg) (f r : Byte) : (s.writeFlagThenResult x f r).fb = s.fb := rfl
@[simp] theorem State.writeFlagThenResult_key (s : State) (x : Reg) (f r : Byte) : (s.writeFlagThenResult x f r).key = s.key := rfl
@[simp] theorem State.writeFlagThenResult_status (s : State) (x : Reg) (f r : Byte) : (s.writeFlagThenResult x f r).status = s.status := rfl
@[simp] theorem State.writeFlagThenResult_cfg (s : State) (x : Reg) (f r : Byte) : (s.writeFlagThenResult x f r).cfg = s.cfg := rfl
@[simp] theorem State.writeFlagThenResult_draws (s : State) (x : Reg) (f r : Byte) : (s.writeFlagThenResult x f r).draws = s.draws := rfl
@[simp] theorem State.writeFlagThenResult_byteAt (s : State) (x : Reg) (f r : Byte) (d : Nat) : (s.writeFlagThenResult x f r).byteAt d = s.byteAt d := rfl

/-- With `x = 15` the result stands. -/
theorem State.writeFlagThenResult_V (s : State) (x : Reg) (f r : Byte) (j : Reg) :
    (s.writeFlagThenResult x f r).V j = if j = x then r else if j = VF then f else s.V j := by
  simp [State.writeFlagThenResult]

/-! ## Skips (40_control_flow.md R80) -/

@[simp] theorem State.skipIf_regs (s : State) (c : Bool) : (s.skipIf c).regs = s.regs := by
  cases c <;> rfl
@[simp] theorem State.skipIf_i (s : State) (c : Bool) : (s.skipIf c).i = s.i := by
  cases c <;> rfl
theorem State.skipIf_pc (s : State) (c : Bool) : (s.skipIf c).pc = if c then s.pc + 2 else s.pc := by
  cases c <;> rfl
@[simp] theorem State.skipIf_dt (s : State) (c : Bool) : (s.skipIf c).dt = s.dt := by
  cases c <;> rfl
@[simp] theorem State.skipIf_st (s : State) (c : Bool) : (s.skipIf c).st = s.st := by
  cases c <;> rfl
@[simp] theorem State.skipIf_stack (s : State) (c : Bool) : (s.skipIf c).stack = s.stack := by
  cases c <;> rfl
@[simp] theorem State.skipIf_mem (s : State) (c : Bool) : (s.skipIf c).mem = s.mem := by
  cases c <;> rfl
@[simp] theorem State.skipIf_fb (s : State) (c : Bool) : (s.skipIf c).fb = s.fb := by
  cases c <;> rfl
@[simp] theorem State.skipIf_key (s : State) (c : Bool) : (s.skipIf c).key = s.key := by
  cases c <;> rfl
@[simp] theorem State.skipIf_status (s : State) (c : Bool) : (s.skipIf c).status = s.status := by
  cases c <;> rfl
@[simp] theorem State.skipIf_cfg (s : State) (c : Bool) : (s.skipIf c).cfg = s.cfg := by
  cases c <;> rfl
@[simp] theorem State.skipIf_draws (s : State) (c : Bool) : (s.skipIf c).draws = s.draws := by
  cases c <;> rfl
@[simp] theorem State.skipIf_V (s : State) (c : Bool) (j : Reg) : (s.skipIf c).V j = s.V j := by
  cases c <;> rfl
@[simp] theorem State.skipIf_byteAt (s : State) (c : Bool) (d : Nat) : (s.skipIf c).byteAt d = s.byteAt d := by
  cases c <;> rfl

theorem State.setKey_skipIf (s : State) (c : Bool) (k : Fin 16) (b : Bool) :
    (s.setKey k b).skipIf c = (s.skipIf c).setKey k b := by cases c <;> rfl
theorem State.setSt_skipIf (s : State) (c : Bool) (b : Byte) :
    (s.setSt b).skipIf c = (s.skipIf c).setSt b := by cases c <;> rfl

/-! ## The end of a draw (43_display.md R122) -/

@[simp] theorem State.withCanvas_i (s : State) (k : Canvas) : (s.withCanvas k).i = s.i := rfl
@[simp] theorem State.withCanvas_pc (s : State) (k : Canvas) : (s.withCanvas k).pc = s.pc := rfl
@[simp] theorem State.withCanvas_dt (s : State) (k : Canvas) : (s.withCanvas k).dt = s.dt := rfl
@[simp] theorem State.withCanvas_st (s : State) (k : Canvas) : (s.withCanvas k).st = s.st := rfl
@[simp] theorem State.withCanvas_stack (s : State) (k : Canvas) : (s.withCanvas k).stack = s.stack := rfl
@[simp] theorem State.withCanvas_mem (s : State) (k : Canvas) : (s.withCanvas k).mem = s.mem := rfl
@[simp] theorem State.withCanvas_fb (s : State) (k : Canvas) : (s.withCanvas k).fb = k.fb := rfl
@[simp] theorem State.withCanvas_key (s : State) (k : Canvas) : (s.withCanvas k).key = s.key := rfl
@[simp] theorem State.withCanvas_status (s : State) (k : Canvas) : (s.withCanvas k).status = s.status := rfl
@[simp] theorem State.withCanvas_cfg (s : State) (k : Canvas) : (s.withCanvas k).cfg = s.cfg := rfl
@[simp] theorem State.withCanvas_draws (s : State) (k : Canvas) : (s.withCanvas k).draws = s.draws := rfl
@[simp] theorem State.withCanvas_byteAt (s : State) (k : Canvas) (d : Nat) : (s.withCanvas k).byteAt d = s.byteAt d := rfl

theorem State.withCanvas_V (s : State) (k : Canvas) (j : Reg) :
    (s.withCanvas k).V j = if j = VF then flagByte k.flag else s.V j := by
  simp [State.withCanvas]

/-! ## Bytes (20_memory.md R43 to R47) -/

/-- The bytes stored from `a` read back in place, every other byte reads as before. -/
theorem State.storeBytes_byteAt (s : State) (a : Nat) (bs : List Byte) (d : Nat) :
    (s.storeBytes a bs).byteAt d = if h : a ≤ d ∧ d - a < bs.length then bs[d - a]'h.2 else s.byteAt d :=
  Memory.peek_pokeBytes ..

@[simp] theorem State.length_loadBytes (s : State) (a n : Nat) : (s.loadBytes a n).length = n :=
  Memory.length_peekBytes ..

@[simp] theorem State.getElem_loadBytes (s : State) (a n k : Nat) (h : k < (s.loadBytes a n).length) :
    (s.loadBytes a n)[k] = s.byteAt (a + k) :=
  Memory.getElem_peekBytes ..

@[simp] theorem State.length_regsUpTo (s : State) (x : Reg) : (s.regsUpTo x).length = x.val + 1 := by
  simp [State.regsUpTo]

theorem State.getElem_regsUpTo (s : State) (x : Reg) (k : Nat) (h : k < (s.regsUpTo x).length) :
    (s.regsUpTo x)[k] = s.V ⟨k, by simp at h; omega⟩ := by
  simp [State.regsUpTo, State.V]

@[simp] theorem State.getElem_regsFrom (s : State) (x : Reg) (a j : Nat) (h : j < 16) :
    (s.regsFrom x a)[j] = if j ≤ x.val then s.byteAt (a + j) else s.V ⟨j, h⟩ := by
  rw [State.regsFrom, Vector.getElem_ofFn]
  rfl

@[simp] theorem length_bcdDigits (b : Byte) : (bcdDigits b).length = 3 := rfl

/-! ## Faults (60_exceptions.md R148) -/

@[simp] theorem raise_eq (c : Cause) (a w : Word) (s : State) :
    raise c a w s = .next (s.setStatus (.faulted c a w)) := rfl

@[simp] theorem raiseInExecute_eq (c : Cause) (w : Word) (s : State) :
    raiseInExecute c w s = .next (s.setStatus (.faulted c (s.pc - 2) w)) := rfl

@[simp] theorem raiseUnrecognised_eq (w : Word) (s : State) :
    raiseUnrecognised w s = .next (s.setStatus (.faulted .unrecognizedInstruction (s.pc - 2) w)) := rfl

@[simp] theorem raiseInFetch_eq (s : State) :
    raiseInFetch s = .next (s.setStatus (.faulted .outOfBoundsAccess s.pc (lowestOutOfBounds s.pc))) := rfl

/-- In the execute stage `PC - 2` is the address of the instruction. -/
theorem advance_pc_sub (s : State) : s.advance.pc - 2 = s.pc := by simp

theorem lowestOutOfBounds_toNat (a : Word) : (lowestOutOfBounds a).toNat = max a.toNat 4096 := by
  have := a.isLt
  simp only [lowestOutOfBounds, BitVec.toNat_ofNat]
  omega

/-! ## Data accesses (20_memory.md R49) -/

theorem withDataAccess_of_in {n : Nat} {s whole : State} (h : ¬ s.dataOutOfBounds n) :
    withDataAccess n s whole = .next whole := if_neg h

theorem withDataAccess_of_out {n : Nat} {s whole : State} (h : s.dataOutOfBounds n) :
    withDataAccess n s whole =
      .next (s.setStatus (.faulted .outOfBoundsAccess (s.pc - 2) (lowestOutOfBounds s.i))) := if_pos h

/-- A data access faults with nothing written or does all of its effect. -/
theorem withDataAccess_cases {n : Nat} {s whole t : State} (h : withDataAccess n s whole = .next t) :
    (s.dataOutOfBounds n ∧
      t = s.setStatus (.faulted .outOfBoundsAccess (s.pc - 2) (lowestOutOfBounds s.i))) ∨
    (¬ s.dataOutOfBounds n ∧ t = whole) := by
  by_cases hb : s.dataOutOfBounds n
  · rw [withDataAccess_of_out hb] at h
    exact .inl ⟨hb, by cases h; rfl⟩
  · rw [withDataAccess_of_in hb] at h
    exact .inr ⟨hb, by cases h; rfl⟩

/-! ## Fetch (20_memory.md R46) -/

theorem State.fetch_eq_none_iff (s : State) : s.fetch = none ↔ 0xFFF ≤ s.pc.toNat := by
  simp only [State.fetch]
  split <;> simp <;> omega

theorem State.fetch_of_lt {s : State} (h : s.pc.toNat < 0xFFF) :
    s.fetch = some (wordOfBytes (s.byteAt s.pc.toNat) (s.byteAt (s.pc.toNat + 1))) :=
  if_neg (by omega)

theorem State.advance_pc_toNat {s : State} (h : s.pc.toNat < 0xFFF) : s.advance.pc.toNat = s.pc.toNat + 2 := by
  have h2 : (2 : Word).toNat = 2 := rfl
  rw [State.advance_pc, BitVec.toNat_add, h2]
  omega

theorem wordOfBytes_bytesOfWord (w : Word) :
    wordOfBytes (w.extractLsb' 8 8) (w.extractLsb' 0 8) = w := by
  apply BitVec.eq_of_toNat_eq
  have := w.isLt
  simp only [wordOfBytes, BitVec.toNat_append, BitVec.extractLsb'_toNat]
  rw [← Nat.shiftLeft_add_eq_or_of_lt (by omega)]
  simp only [Nat.shiftRight_eq_div_pow, Nat.shiftLeft_eq]
  omega

end Sys2Proof.Machine
end

