-- ==== Sys2Proof/Laws/Display.lean ====
section
/-! SUPPORT. The draw engine, cell by cell (43_display.md R120 to R126): what one pixel, one sprite row and a whole
sprite leave, and that no cell is written twice. -/

namespace Sys2Proof.Machine

/-! ## Cells -/

theorem Screen.cell_setCell (f : Screen) (r : Fin 32) (c : Fin 64) (b : Bool) (r' : Fin 32) (c' : Fin 64) :
    Screen.cell (Screen.setCell f r c b) r' c' = if r' = r ∧ c' = c then b else Screen.cell f r' c' := by
  by_cases hr : r' = r
  · subst hr
    by_cases hc : c' = c
    · subst hc; simp [Screen.cell, Screen.setCell]
    · simp [Screen.cell, Screen.setCell, hc, Fin.val_ne_of_ne (Ne.symm hc)]
  · simp [Screen.cell, Screen.setCell, hr, Fin.val_ne_of_ne (Ne.symm hr)]

@[simp] theorem Screen.cell_off (r : Fin 32) (c : Fin 64) : Screen.cell Screen.off r c = false := by
  simp [Screen.cell, Screen.off]

/-- Two screens with equal cells are equal. -/
theorem Screen.ext_cell {f g : Screen} (h : ∀ r c, Screen.cell f r c = Screen.cell g r c) : f = g :=
  Vector.ext fun r hr => Vector.ext fun c hc => h ⟨r, hr⟩ ⟨c, hc⟩

/-! ## One pixel -/

/-- What a cell that held `old` holds after a sprite bit is combined into it (R123, R124). -/
def cellAfter (mode : DrawMode) (old bit : Bool) : Bool :=
  match mode with
  | .overwrite => bit
  | .xor => old ^^ bit

/-- The pixel turns an on cell off: the only event that sets the flag (R124); never in `overwrite` mode (R123). -/
def collides (mode : DrawMode) (old bit : Bool) : Bool :=
  match mode with
  | .overwrite => false
  | .xor => old && bit

theorem combine_cell (mode : DrawMode) (row : Fin 32) (col : Fin 64) (bit : Bool) (k : Canvas)
    (r : Fin 32) (c : Fin 64) :
    Screen.cell (combine mode row col bit k).fb r c =
      if r = row ∧ c = col then cellAfter mode (Screen.cell k.fb row col) bit else Screen.cell k.fb r c := by
  cases mode <;> simp [combine, cellAfter, Screen.cell_setCell]

theorem combine_flag (mode : DrawMode) (row : Fin 32) (col : Fin 64) (bit : Bool) (k : Canvas) :
    (combine mode row col bit k).flag = (k.flag || collides mode (Screen.cell k.fb row col) bit) := by
  cases mode <;> simp [combine, collides]

/-! ## Targets are distinct (R126) -/

theorem spriteCol_inj {vx : Byte} {c d : Nat} (hc : c < 64) (hd : d < 64)
    (h : spriteCol vx c = spriteCol vx d) : c = d := by
  have := congrArg Fin.val h
  simp only [spriteCol, Fin.val_ofNat] at this
  omega

theorem spriteRow_inj {vy : Byte} {r q : Nat} (hr : r < 32) (hq : q < 32)
    (h : spriteRow vy r = spriteRow vy q) : r = q := by
  have := congrArg Fin.val h
  simp only [spriteRow, Fin.val_ofNat] at this
  omega

/-! ## One sprite row -/

/-- A row keeps every cell that is no target of the listed columns. -/
theorem drawColumns_other (mode : DrawMode) (vx : Byte) (row : Fin 32) (b : Byte) (cs : List Nat) (k : Canvas)
    (r : Fin 32) (col : Fin 64) (h : r = row → ∀ c ∈ cs, col ≠ spriteCol vx c) :
    Screen.cell (drawColumns mode vx row b cs k).fb r col = Screen.cell k.fb r col := by
  induction cs generalizing k with
  | nil => rfl
  | cons c cs ih =>
    rw [drawColumns, ih _ fun hr d hd => h hr d (List.mem_cons_of_mem _ hd), combine_cell, if_neg]
    rintro ⟨hr, hc⟩
    exact h hr c List.mem_cons_self hc

/-- A row combines each of its bits into its cell once. -/
theorem drawColumns_target (mode : DrawMode) (vx : Byte) (row : Fin 32) (b : Byte) {cs : List Nat} (k : Canvas)
    (hn : cs.Nodup) (hlt : ∀ c ∈ cs, c < 64) {c : Nat} (hc : c ∈ cs) :
    Screen.cell (drawColumns mode vx row b cs k).fb row (spriteCol vx c) =
      cellAfter mode (Screen.cell k.fb row (spriteCol vx c)) (spriteBit b c) := by
  induction cs generalizing k with
  | nil => simp at hc
  | cons d cs ih =>
    have hd := List.nodup_cons.1 hn
    rw [drawColumns]
    rcases List.mem_cons.1 hc with rfl | hc
    · rw [drawColumns_other, combine_cell, if_pos ⟨rfl, rfl⟩]
      intro _ e he hce
      have := spriteCol_inj (hlt c (by simp)) (hlt e (by simp [he])) hce
      exact hd.1 (this ▸ he)
    · rw [ih _ hd.2 (fun e he => hlt e (by simp [he])) hc, combine_cell, if_neg]
      rintro ⟨_, hcd⟩
      have := spriteCol_inj (hlt c (by simp [hc])) (hlt d (by simp)) hcd
      exact hd.1 (this ▸ hc)

/-- A row sets the flag exactly when one of its pixels collides. -/
theorem drawColumns_flag (mode : DrawMode) (vx : Byte) (row : Fin 32) (b : Byte) {cs : List Nat} (k : Canvas)
    (hn : cs.Nodup) (hlt : ∀ c ∈ cs, c < 64) :
    (drawColumns mode vx row b cs k).flag = true ↔
      k.flag = true ∨ ∃ c ∈ cs, collides mode (Screen.cell k.fb row (spriteCol vx c)) (spriteBit b c) = true := by
  induction cs generalizing k with
  | nil => simp [drawColumns]
  | cons d cs ih =>
    have hd := List.nodup_cons.1 hn
    have same : ∀ c ∈ cs, Screen.cell (combine mode row (spriteCol vx d) (spriteBit b d) k).fb row (spriteCol vx c) =
        Screen.cell k.fb row (spriteCol vx c) := by
      intro c hc
      rw [combine_cell, if_neg]
      rintro ⟨_, hcd⟩
      have := spriteCol_inj (hlt c (by simp [hc])) (hlt d (by simp)) hcd
      exact hd.1 (this ▸ hc)
    rw [drawColumns, ih _ hd.2 fun e he => hlt e (by simp [he]), combine_flag]
    constructor
    · rintro (h | ⟨c, hc, h⟩)
      · rcases Bool.or_eq_true_iff.1 h with h | h
        · exact .inl h
        · exact .inr ⟨d, by simp, h⟩
      · exact .inr ⟨c, by simp [hc], by rwa [same c hc] at h⟩
    · rintro (h | ⟨c, hc, h⟩)
      · exact .inl (by simp [h])
      · rcases List.mem_cons.1 hc with rfl | hc
        · exact .inl (by simp [h])
        · exact .inr ⟨c, hc, by rwa [same c hc]⟩

theorem spriteColumns_nodup : spriteColumns.Nodup := by decide

theorem mem_spriteColumns {c : Nat} : c ∈ spriteColumns ↔ c < 8 := by
  simp [spriteColumns]
  omega

theorem spriteColumns_lt : ∀ c ∈ spriteColumns, c < 64 := by decide

/-! ## A whole sprite -/

/-- The draw keeps every cell that is no target: no sprite row meets its row, or no sprite column its column. -/
theorem drawRows_other (mode : DrawMode) (vx vy : Byte) (r : Nat) (bs : List Byte) (k : Canvas)
    (row : Fin 32) (col : Fin 64)
    (h : ∀ j < bs.length, ∀ c < 8, ¬ (row = spriteRow vy (r + j) ∧ col = spriteCol vx c)) :
    Screen.cell (drawRows mode vx vy r bs k).fb row col = Screen.cell k.fb row col := by
  induction bs generalizing r k with
  | nil => rfl
  | cons b bs ih =>
    rw [drawRows, ih, drawColumns_other]
    · intro hr c hc hcol
      exact h 0 (by simp) c (mem_spriteColumns.1 hc) ⟨hr, hcol⟩
    · intro j hj c hc ht
      exact h (j + 1) (by simp; omega) c hc (by rwa [Nat.add_right_comm] at ht)

/-- The draw combines each sprite bit into its target cell exactly once. -/
theorem drawRows_target (mode : DrawMode) (vx vy : Byte) (r : Nat) (bs : List Byte) (k : Canvas)
    (hr : r + bs.length ≤ 32) {j c : Nat} (hj : j < bs.length) (hc : c < 8) :
    Screen.cell (drawRows mode vx vy r bs k).fb (spriteRow vy (r + j)) (spriteCol vx c) =
      cellAfter mode (Screen.cell k.fb (spriteRow vy (r + j)) (spriteCol vx c)) (spriteBit bs[j] c) := by
  induction bs generalizing r k j with
  | nil => simp at hj
  | cons b bs ih =>
    simp only [List.length_cons] at hr hj
    rw [drawRows]
    cases j with
    | zero =>
      rw [drawRows_other]
      · exact drawColumns_target mode vx _ b k spriteColumns_nodup spriteColumns_lt (mem_spriteColumns.2 hc)
      · rintro i hi d _ ⟨hrow, _⟩
        have := spriteRow_inj (by omega) (by omega) hrow
        omega
    | succ j =>
      have e : r + (j + 1) = r + 1 + j := by omega
      rw [e, ih _ _ (by omega) (by omega), drawColumns_other]
      · rfl
      · intro hrow _ _
        have := spriteRow_inj (by omega) (by omega) hrow
        omega

/-- The draw sets the flag exactly when one of its pixels collides with what the framebuffer held before the draw. -/
theorem drawRows_flag (mode : DrawMode) (vx vy : Byte) (r : Nat) (bs : List Byte) (k : Canvas)
    (hr : r + bs.length ≤ 32) :
    (drawRows mode vx vy r bs k).flag = true ↔
      k.flag = true ∨ ∃ j, ∃ hj : j < bs.length, ∃ c < 8,
        collides mode (Screen.cell k.fb (spriteRow vy (r + j)) (spriteCol vx c)) (spriteBit bs[j] c) = true := by
  induction bs generalizing r k with
  | nil => simp [drawRows]
  | cons b bs ih =>
    simp only [List.length_cons] at hr
    have same : ∀ j < bs.length, ∀ c,
        Screen.cell (drawColumns mode vx (spriteRow vy r) b spriteColumns k).fb (spriteRow vy (r + 1 + j)) (spriteCol vx c) =
          Screen.cell k.fb (spriteRow vy (r + 1 + j)) (spriteCol vx c) := by
      intro j hj c
      apply drawColumns_other
      intro hrow
      have := spriteRow_inj (by omega) (by omega) hrow
      omega
    rw [drawRows, ih _ _ (by omega), drawColumns_flag _ _ _ _ _ spriteColumns_nodup spriteColumns_lt]
    constructor
    · rintro ((h | ⟨c, hc, h⟩) | ⟨j, hj, c, hc, h⟩)
      · exact .inl h
      · exact .inr ⟨0, by simp, c, mem_spriteColumns.1 hc, h⟩
      · rw [same j hj c] at h
        refine .inr ⟨j + 1, by simp; omega, c, hc, ?_⟩
        have e : r + (j + 1) = r + 1 + j := by omega
        rw [e]
        exact h
    · rintro (h | ⟨j, hj, c, hc, h⟩)
      · exact .inl (.inl h)
      · cases j with
        | zero => exact .inl (.inr ⟨c, mem_spriteColumns.2 hc, h⟩)
        | succ j =>
          have hj' : j < bs.length := by simpa using hj
          refine .inr ⟨j, hj', c, hc, ?_⟩
          rw [same j hj' c]
          have e : r + (j + 1) = r + 1 + j := by omega
          rw [e] at h
          exact h

end Sys2Proof.Machine
end

