-- ==== Sys2Proof/Laws/Exec.lean ====
section
/-! SUPPORT. What the execute stage can do, said once: an instruction completes, or RET underflows, or a data access is
out of bounds and nothing is written. To go from `exec i s = .next t` to `t` itself: `cases h` for an instruction that
cannot fault, `withDataAccess_cases h` for one that accesses memory. -/

namespace Sys2Proof.Machine

/-- The states in which an instruction completes: RET has something to pop, data accesses stay inside memory. -/
def Completes (i : Instr) (s : State) : Prop :=
  (i = .ret → s.stack ≠ []) ∧ ¬ s.dataOutOfBounds i.dataCount

/-- RET on an empty stack (60_exceptions.md R143). -/
theorem exec_ret_empty {s : State} (h : s.stack = []) :
    exec .ret s = .next (s.setStatus (.faulted .stackUnderflow (s.pc - 2) 0)) := by
  simp [exec, execRet, h]

/-- RET with something to pop (40_control_flow.md R81). -/
theorem exec_ret_cons {s : State} {a : Word} {rest : List Word} (h : s.stack = a :: rest) :
    exec .ret s = .next ((s.setStack rest).setPc a) := by
  simp [exec, execRet, h]

/-- A data access past memory (60_exceptions.md R144). -/
theorem exec_out_of_bounds {i : Instr} {s : State} (h : s.dataOutOfBounds i.dataCount) :
    exec i s = .next (s.setStatus (.faulted .outOfBoundsAccess (s.pc - 2) (lowestOutOfBounds s.i))) := by
  cases i
  case drwVxVyN x y n => exact withDataAccess_of_out h
  case ldBVx x => exact withDataAccess_of_out h
  case ldMemVx x => exact withDataAccess_of_out h
  case ldVxMem x => exact withDataAccess_of_out h
  all_goals exact absurd h.1 (by simp [Instr.dataCount])

/-- An instruction that completes answers a next state; `KEY`, `STATUS` and the parameters are as before. -/
theorem exec_of_completes {i : Instr} {s : State} (h : Completes i s) :
    ∃ t, exec i s = .next t ∧ t.status = s.status ∧ t.key = s.key ∧ t.cfg = s.cfg := by
  cases i
  case ret =>
    obtain ⟨a, rest, hs⟩ := List.exists_cons_of_ne_nil (h.1 rfl)
    exact ⟨_, exec_ret_cons hs, rfl, rfl, rfl⟩
  case seVxKk x kk => exact ⟨_, rfl, by simp, by simp, by simp⟩
  case sneVxKk x kk => exact ⟨_, rfl, by simp, by simp, by simp⟩
  case seVxVy x y => exact ⟨_, rfl, by simp, by simp, by simp⟩
  case drwVxVyN x y n => exact ⟨_, withDataAccess_of_in h.2, rfl, rfl, rfl⟩
  case ldBVx x => exact ⟨_, withDataAccess_of_in h.2, rfl, rfl, rfl⟩
  case ldMemVx x => exact ⟨_, withDataAccess_of_in h.2, rfl, rfl, rfl⟩
  case ldVxMem x => exact ⟨_, withDataAccess_of_in h.2, rfl, rfl, rfl⟩
  all_goals exact ⟨_, rfl, rfl, rfl, rfl⟩

/-- Everything the execute stage can answer. -/
theorem exec_cases {i : Instr} {s t : State} (h : exec i s = .next t) :
    (Completes i s ∧ t.status = s.status ∧ t.key = s.key ∧ t.cfg = s.cfg) ∨
    (i = .ret ∧ s.stack = [] ∧ t = s.setStatus (.faulted .stackUnderflow (s.pc - 2) 0)) ∨
    (s.dataOutOfBounds i.dataCount ∧
      t = s.setStatus (.faulted .outOfBoundsAccess (s.pc - 2) (lowestOutOfBounds s.i))) := by
  by_cases hb : s.dataOutOfBounds i.dataCount
  · rw [exec_out_of_bounds hb] at h
    cases h
    exact .inr (.inr ⟨hb, rfl⟩)
  · by_cases hr : i = .ret ∧ s.stack = []
    · obtain ⟨rfl, hs⟩ := hr
      rw [exec_ret_empty hs] at h
      cases h
      exact .inr (.inl ⟨rfl, hs, rfl⟩)
    · have hc : Completes i s := ⟨fun hi hs => hr ⟨hi, hs⟩, hb⟩
      obtain ⟨t', ht, hrest⟩ := exec_of_completes hc
      rw [ht] at h
      cases h
      exact .inl ⟨hc, hrest⟩

/-- Every instruction keeps the canonical form of memory. -/
theorem exec_mem_wf {i : Instr} {s t : State} (h : exec i s = .next t) (hw : Memory.wf s.cfg s.mem) :
    Memory.wf t.cfg t.mem := by
  cases i
  case ret =>
    cases hs : s.stack with
    | nil => rw [exec_ret_empty hs] at h; cases h; exact hw
    | cons a rest => rw [exec_ret_cons hs] at h; cases h; exact hw
  case drwVxVyN x y n => rcases withDataAccess_cases h with ⟨_, rfl⟩ | ⟨_, rfl⟩ <;> exact hw
  case ldVxMem x => rcases withDataAccess_cases h with ⟨_, rfl⟩ | ⟨_, rfl⟩ <;> exact hw
  case ldBVx x =>
    rcases withDataAccess_cases h with ⟨_, rfl⟩ | ⟨hb, rfl⟩
    · exact hw
    · refine Memory.wf_pokeBytes hw ?_
      simp [State.dataAddress] at hb ⊢
      omega
  case ldMemVx x =>
    rcases withDataAccess_cases h with ⟨_, rfl⟩ | ⟨hb, rfl⟩
    · exact hw
    · refine Memory.wf_pokeBytes hw ?_
      simp [State.dataAddress] at hb ⊢
      omega
  case seVxKk x kk => cases h; simpa using hw
  case sneVxKk x kk => cases h; simpa using hw
  case seVxVy x y => cases h; simpa using hw
  all_goals (cases h; exact hw)

end Sys2Proof.Machine
end

