-- ==== Sys2Proof/Laws/Step.lean ====
section
/-! SUPPORT. What one step can do, said once (30_encoding.md R64), and that `withFetchWord` makes the very next step run
its word. -/

namespace Sys2Proof.Machine

theorem step_of_faulted {s : State} {c : Cause} {a w : Word} (h : s.status = .faulted c a w) : step s = .next s := by
  simp [step, h]

theorem step_of_fetch_none {s : State} (hs : s.status = .running) (hf : s.fetch = none) :
    step s = .next (s.setStatus (.faulted .outOfBoundsAccess s.pc (lowestOutOfBounds s.pc))) := by
  simp [step, hs, hf]

theorem step_of_error {s : State} {w : Word} {e : Rejection} (hs : s.status = .running) (hf : s.fetch = some w)
    (hd : decode w = .error e) :
    step s = .next (s.advance.setStatus (.faulted .unrecognizedInstruction s.pc w)) := by
  simp [step, hs, hf, hd]

theorem step_of_decode {s : State} {w : Word} {i : Instr} (hs : s.status = .running) (hf : s.fetch = some w)
    (hd : decode w = .ok i) : step s = exec i s.advance := by
  simp [step, hs, hf, hd]

/-- Everything a step can answer. -/
theorem step_cases {s t : State} (h : step s = .next t) :
    (s.status ≠ .running ∧ t = s) ∨
    (s.status = .running ∧ s.fetch = none ∧
      t = s.setStatus (.faulted .outOfBoundsAccess s.pc (lowestOutOfBounds s.pc))) ∨
    (∃ w e, s.status = .running ∧ s.fetch = some w ∧ decode w = .error e ∧
      t = s.advance.setStatus (.faulted .unrecognizedInstruction s.pc w)) ∨
    (∃ w i, s.status = .running ∧ s.fetch = some w ∧ decode w = .ok i ∧ exec i s.advance = .next t) := by
  cases hs : s.status with
  | faulted c a w =>
    rw [step_of_faulted hs] at h
    cases h
    exact .inl ⟨by simp, rfl⟩
  | running =>
    cases hf : s.fetch with
    | none =>
      rw [step_of_fetch_none hs hf] at h
      cases h
      exact .inr (.inl ⟨rfl, rfl, rfl⟩)
    | some w =>
      cases hd : decode w with
      | error e =>
        rw [step_of_error hs hf hd] at h
        cases h
        exact .inr (.inr (.inl ⟨w, e, rfl, rfl, hd, rfl⟩))
      | ok i =>
        rw [step_of_decode hs hf hd] at h
        exact .inr (.inr (.inr ⟨w, i, rfl, rfl, hd, h⟩))

/-- The word placed is the word fetched. -/
theorem fetch_placeWord (s : State) (w : Word) : (s.placeWord w).fetch = some w := by
  have key : ∀ u : State, u.pc.toNat < 0xFFF → (u.storeBytes u.pc.toNat (bytesOfWord w)).fetch = some w := by
    intro u hu
    rw [State.fetch_of_lt (by simpa using hu), State.storeBytes_byteAt, State.storeBytes_byteAt]
    simp [bytesOfWord, wordOfBytes_bytesOfWord]
  unfold State.placeWord
  split
  · exact key ((s.setPc 0x0200).setStatus .running) (show (0x0200 : Word).toNat < 0xFFF by decide)
  · exact key (s.setStatus .running) (by simp; omega)

/-- The very next step runs exactly the word placed. -/
theorem step_withFetchWord {s : State} {nbits w : Nat} {i : Instr} (h : decode (tableWord nbits w) = .ok i) :
    step (s.withFetchWord nbits w) = exec i (s.withFetchWord nbits w).advance :=
  step_of_decode (by unfold State.withFetchWord State.placeWord; split <;> rfl) (fetch_placeWord s _) h

end Sys2Proof.Machine
end

