-- ==== Sys2Proof/Laws/HostSurface.lean ====
section
/-! SUPPORT. The tick unit and the host, and the induction over schedules, packaged once. -/

namespace Sys2Proof.Machine

theorem State.tick_of_running {s : State} (h : s.status = .running) :
    s.tick = (s.setDt (countDown s.dt)).setSt (countDown s.st) := by
  simp [State.tick, h]

theorem State.tick_of_faulted {s : State} {c : Cause} {a w : Word} (h : s.status = .faulted c a w) :
    s.tick = s := by
  simp [State.tick, h]

theorem State.ifRunning_of_running {s t : State} (h : s.status = .running) : s.ifRunning t = t := by
  simp [State.ifRunning, h]

theorem State.ifRunning_of_faulted {s t : State} {c : Cause} {a w : Word} (h : s.status = .faulted c a w) :
    s.ifRunning t = s := by
  simp [State.ifRunning, h]

theorem State.load_of_le {s : State} {bytes : List Byte} (h : bytes.length ≤ 3584) :
    s.load bytes = s.storeBytes 0x200 bytes := if_pos h

theorem State.load_of_gt {s : State} {bytes : List Byte} (h : 3584 < bytes.length) :
    s.load bytes = s.setStatus (.faulted .loadOverflow 0x0200 (BitVec.ofNat 16 (min bytes.length 0xFFFF))) :=
  if_neg (Nat.not_le.2 h)

/-- A `load` inside its lifecycle (70_reset_and_hazards.md R182). -/
theorem System.act_load_accepted {m : System} (h : m.phase = .fresh ∧ m.state.status = .running) (bytes : List Byte) :
    m.act (.load bytes) = .next ⟨m.state.load bytes, .loaded⟩ := if_pos h

/-- Any other `load`. -/
theorem System.act_load_refused {m : System} (h : ¬ (m.phase = .fresh ∧ m.state.status = .running))
    (bytes : List Byte) : m.act (.load bytes) = .refused .loadOutsideLifecycle := if_neg h

/-- Everything one action can do to the machine. -/
theorem System.act_cases {m m' : System} {e : Event} (h : m.act e = .next m') :
    (e = .reset ∧ m' = ⟨m.state.resetEvent, .fresh⟩) ∨
    (∃ bytes, e = .load bytes ∧ m.phase = .fresh ∧ m.state.status = .running ∧
      m' = ⟨m.state.load bytes, .loaded⟩) ∨
    (∃ t, e = .step ∧ step m.state = .next t ∧ m' = ⟨t, .started⟩) ∨
    (e = .tick ∧ m' = ⟨m.state.tick, m.phase⟩) ∨
    (∃ b, e = .writeDt b ∧ m' = ⟨m.state.writeDt b, m.phase⟩) ∨
    (∃ b, e = .writeSt b ∧ m' = ⟨m.state.writeSt b, m.phase⟩) ∨
    (∃ k b, e = .writeKey k b ∧ m' = ⟨m.state.writeKey k b, m.phase⟩) := by
  cases e with
  | reset => cases h; exact .inl ⟨rfl, rfl⟩
  | load bytes =>
    simp only [System.act, System.loadEvent] at h
    split at h
    · rename_i hp
      cases h
      exact .inr (.inl ⟨bytes, rfl, hp.1, hp.2, rfl⟩)
    · cases h
  | step =>
    simp only [System.act, System.stepEvent] at h
    split at h
    · rename_i t ht
      cases h
      exact .inr (.inr (.inl ⟨t, rfl, ht, rfl⟩))
    · cases h
    · cases h
  | tick => cases h; exact .inr (.inr (.inr (.inl ⟨rfl, rfl⟩)))
  | writeDt b => cases h; exact .inr (.inr (.inr (.inr (.inl ⟨b, rfl, rfl⟩))))
  | writeSt b => cases h; exact .inr (.inr (.inr (.inr (.inr (.inl ⟨b, rfl, rfl⟩)))))
  | writeKey k b => cases h; exact .inr (.inr (.inr (.inr (.inr (.inr ⟨k, b, rfl, rfl⟩)))))

/-- What every action keeps, every schedule keeps. -/
theorem System.run_keeps {P : System → Prop} (hP : ∀ m e m', P m → m.act e = .next m' → P m')
    {es : List Event} {m m' : System} (h0 : P m) (h : m.run es = .next m') : P m' := by
  induction es generalizing m with
  | nil => cases h; exact h0
  | cons e es ih =>
    simp only [System.run] at h
    split at h
    · rename_i m1 h1
      exact ih (hP m e m1 h0 h1) h
    · cases h
    · cases h

end Sys2Proof.Machine
end

