-- ==== Sys2Proof/Laws/PerInstr.lean ====
section
/-! SUPPORT. Statements about every instruction as syntax, one lemma per constructor. -/

namespace Sys2Proof.Laws.EncodesToRow

/-- The word of an instruction selects the row of the opcode table that bears the instruction's mnemonic
(30_encoding.md R66). -/
def Statement (i : Instr) : Prop :=
  ∃ r ∈ opcodeTable, r.mnemonic = i.mnemonic ∧ r.selects (encode i) = true

/-- A word selects a row when its masked bits are the row's. -/
theorem of_row {i : Instr} (r : Row) (hr : r ∈ opcodeTable) (hm : r.mnemonic = i.mnemonic)
    (h : encode i &&& r.mask = r.bits) : Statement i :=
  ⟨r, hr, hm, by simpa [Row.selects] using h⟩

theorem cls : Statement .cls := of_row ⟨"CLS", 0x00E0, 0xFFFF⟩ (by decide) rfl rfl

theorem ret : Statement .ret := of_row ⟨"RET", 0x00EE, 0xFFFF⟩ (by decide) rfl rfl

theorem jpAddr (nnn : Addr) : Statement (.jpAddr nnn) :=
  of_row ⟨"JP_addr", 0x1000, 0xF000⟩ (by decide) rfl ((mask_F000 _ _ rfl rfl rfl).2 (fieldOp_packNNN ..))

theorem callAddr (nnn : Addr) : Statement (.callAddr nnn) :=
  of_row ⟨"CALL_addr", 0x2000, 0xF000⟩ (by decide) rfl ((mask_F000 _ _ rfl rfl rfl).2 (fieldOp_packNNN ..))

theorem seVxKk (x : Reg) (kk : Byte) : Statement (.seVxKk x kk) :=
  of_row ⟨"SE_Vx_kk", 0x3000, 0xF000⟩ (by decide) rfl ((mask_F000 _ _ rfl rfl rfl).2 (fieldOp_packXKK ..))

theorem sneVxKk (x : Reg) (kk : Byte) : Statement (.sneVxKk x kk) :=
  of_row ⟨"SNE_Vx_kk", 0x4000, 0xF000⟩ (by decide) rfl ((mask_F000 _ _ rfl rfl rfl).2 (fieldOp_packXKK ..))

theorem seVxVy (x y : Reg) : Statement (.seVxVy x y) :=
  of_row ⟨"SE_Vx_Vy", 0x5000, 0xF00F⟩ (by decide) rfl ((mask_F00F _ _ rfl rfl).2 ⟨fieldOp_packXY .., fieldN_packXY ..⟩)

theorem ldVxKk (x : Reg) (kk : Byte) : Statement (.ldVxKk x kk) :=
  of_row ⟨"LD_Vx_kk", 0x6000, 0xF000⟩ (by decide) rfl ((mask_F000 _ _ rfl rfl rfl).2 (fieldOp_packXKK ..))

theorem addVxKk (x : Reg) (kk : Byte) : Statement (.addVxKk x kk) :=
  of_row ⟨"ADD_Vx_kk", 0x7000, 0xF000⟩ (by decide) rfl ((mask_F000 _ _ rfl rfl rfl).2 (fieldOp_packXKK ..))

theorem ldVxVy (x y : Reg) : Statement (.ldVxVy x y) :=
  of_row ⟨"LD_Vx_Vy", 0x8000, 0xF00F⟩ (by decide) rfl ((mask_F00F _ _ rfl rfl).2 ⟨fieldOp_packXY .., fieldN_packXY ..⟩)

theorem orVxVy (x y : Reg) : Statement (.orVxVy x y) :=
  of_row ⟨"OR_Vx_Vy", 0x8001, 0xF00F⟩ (by decide) rfl ((mask_F00F _ _ rfl rfl).2 ⟨fieldOp_packXY .., fieldN_packXY ..⟩)

theorem andVxVy (x y : Reg) : Statement (.andVxVy x y) :=
  of_row ⟨"AND_Vx_Vy", 0x8002, 0xF00F⟩ (by decide) rfl ((mask_F00F _ _ rfl rfl).2 ⟨fieldOp_packXY .., fieldN_packXY ..⟩)

theorem xorVxVy (x y : Reg) : Statement (.xorVxVy x y) :=
  of_row ⟨"XOR_Vx_Vy", 0x8003, 0xF00F⟩ (by decide) rfl ((mask_F00F _ _ rfl rfl).2 ⟨fieldOp_packXY .., fieldN_packXY ..⟩)

theorem addVxVy (x y : Reg) : Statement (.addVxVy x y) :=
  of_row ⟨"ADD_Vx_Vy", 0x8004, 0xF00F⟩ (by decide) rfl ((mask_F00F _ _ rfl rfl).2 ⟨fieldOp_packXY .., fieldN_packXY ..⟩)

theorem subVxVy (x y : Reg) : Statement (.subVxVy x y) :=
  of_row ⟨"SUB_Vx_Vy", 0x8005, 0xF00F⟩ (by decide) rfl ((mask_F00F _ _ rfl rfl).2 ⟨fieldOp_packXY .., fieldN_packXY ..⟩)

theorem shrVxVy (x y : Reg) : Statement (.shrVxVy x y) :=
  of_row ⟨"SHR_Vx_Vy", 0x8006, 0xF00F⟩ (by decide) rfl ((mask_F00F _ _ rfl rfl).2 ⟨fieldOp_packXY .., fieldN_packXY ..⟩)

theorem subnVxVy (x y : Reg) : Statement (.subnVxVy x y) :=
  of_row ⟨"SUBN_Vx_Vy", 0x8007, 0xF00F⟩ (by decide) rfl ((mask_F00F _ _ rfl rfl).2 ⟨fieldOp_packXY .., fieldN_packXY ..⟩)

theorem shlVxVy (x y : Reg) : Statement (.shlVxVy x y) :=
  of_row ⟨"SHL_Vx_Vy", 0x800E, 0xF00F⟩ (by decide) rfl ((mask_F00F _ _ rfl rfl).2 ⟨fieldOp_packXY .., fieldN_packXY ..⟩)

theorem ldIAddr (nnn : Addr) : Statement (.ldIAddr nnn) :=
  of_row ⟨"LD_I_addr", 0xA000, 0xF000⟩ (by decide) rfl ((mask_F000 _ _ rfl rfl rfl).2 (fieldOp_packNNN ..))

theorem rndVxKk (x : Reg) (kk : Byte) : Statement (.rndVxKk x kk) :=
  of_row ⟨"RND_Vx_kk", 0xC000, 0xF000⟩ (by decide) rfl ((mask_F000 _ _ rfl rfl rfl).2 (fieldOp_packXKK ..))

theorem drwVxVyN (x y : Reg) (n : Fin 16) : Statement (.drwVxVyN x y n) :=
  of_row ⟨"DRW_Vx_Vy_n", 0xD000, 0xF000⟩ (by decide) rfl ((mask_F000 _ _ rfl rfl rfl).2 (fieldOp_packXY ..))

theorem ldVxDt (x : Reg) : Statement (.ldVxDt x) :=
  of_row ⟨"LD_Vx_DT", 0xF007, 0xF0FF⟩ (by decide) rfl ((mask_F0FF _ _ rfl).2 ⟨fieldOp_packXF .., fieldKK_packXF ..⟩)

theorem ldDtVx (x : Reg) : Statement (.ldDtVx x) :=
  of_row ⟨"LD_DT_Vx", 0xF015, 0xF0FF⟩ (by decide) rfl ((mask_F0FF _ _ rfl).2 ⟨fieldOp_packXF .., fieldKK_packXF ..⟩)

theorem ldStVx (x : Reg) : Statement (.ldStVx x) :=
  of_row ⟨"LD_ST_Vx", 0xF018, 0xF0FF⟩ (by decide) rfl ((mask_F0FF _ _ rfl).2 ⟨fieldOp_packXF .., fieldKK_packXF ..⟩)

theorem addIVx (x : Reg) : Statement (.addIVx x) :=
  of_row ⟨"ADD_I_Vx", 0xF01E, 0xF0FF⟩ (by decide) rfl ((mask_F0FF _ _ rfl).2 ⟨fieldOp_packXF .., fieldKK_packXF ..⟩)

theorem ldBVx (x : Reg) : Statement (.ldBVx x) :=
  of_row ⟨"LD_B_Vx", 0xF033, 0xF0FF⟩ (by decide) rfl ((mask_F0FF _ _ rfl).2 ⟨fieldOp_packXF .., fieldKK_packXF ..⟩)

theorem ldMemVx (x : Reg) : Statement (.ldMemVx x) :=
  of_row ⟨"LD__I__Vx", 0xF055, 0xF0FF⟩ (by decide) rfl ((mask_F0FF _ _ rfl).2 ⟨fieldOp_packXF .., fieldKK_packXF ..⟩)

theorem ldVxMem (x : Reg) : Statement (.ldVxMem x) :=
  of_row ⟨"LD_Vx__I", 0xF065, 0xF0FF⟩ (by decide) rfl ((mask_F0FF _ _ rfl).2 ⟨fieldOp_packXF .., fieldKK_packXF ..⟩)

end Sys2Proof.Laws.EncodesToRow
end

