-- ==== Sys2Proof/Tests/Slice0.lean ====
section
/-! SUPPORT. Tests. Every expected value is written out from the spec: the word patterns of 30_encoding.md R66 and the
vectors of 95_test_vectors.md, named in each docstring (`E` and `T` numbers). The witnesses at the end meet the
hypotheses of the statements in Certificates/Slice0/Obligations.lean. -/

namespace Sys2Proof.Tests

open Sys2Proof.Machine

/-! ## Helpers -/

/-- A field of the next state. -/
def after {α : Type} (f : State → α) : Result → Option α
  | .next t => some (f t)
  | .fault _ => none
  | .refused _ => none

/-- The machine after reset with `V[0]`, `V[1]`, `VF` and `I` set. -/
def init (v0 v1 vf : Byte) (i : Word) : State :=
  (((State.reset.setV 0 v0).setV 1 v1).setV VF vf).setI i

/-- One step on the word `w` placed at `PC`. -/
def run1 (s : State) (w : Nat) : Result := step (s.withFetchWord 16 w)

/-- `V[0]`, `V[1]`, `VF`, `PC`. -/
def view (t : State) : Byte × Byte × Byte × Word := (t.V 0, t.V 1, t.V VF, t.pc)

/-- Some bytes of memory. -/
def bytesAt (l : List Nat) (t : State) : List Byte := l.map t.byteAt

/-- Some cells of the framebuffer. -/
def cellsAt (l : List (Fin 32 × Fin 64)) (t : State) : List Bool := l.map fun p => Screen.cell t.fb p.1 p.2

/-- Cells turned on. -/
def withCells (l : List (Fin 32 × Fin 64)) (s : State) : State :=
  s.setFb (l.foldl (fun f p => Screen.setCell f p.1 p.2 true) s.fb)

/-- The same machine with the other `DRAW_MODE`. -/
def xorMachine (s : State) : State := { s with cfg := { s.cfg with drawMode := .xor } }

/-- A machine that has faulted as in E11. -/
def faultedState : State := State.reset.setStatus (.faulted .unrecognizedInstruction 0x0200 0x9000)

/-! ## Well-formedness: one ill-formed word per family of R67, an image one byte too long -/

theorem test_table_has_28_rows : opcodeTable.length = 28 := by decide
theorem test_illformed_family0 : wordWellFormed 0x0000 = false ∧ wordWellFormed 0x01E0 = false := by decide
theorem test_illformed_family5 : wordWellFormed 0x5121 = false := by decide
theorem test_illformed_family8 : wordWellFormed 0x8008 = false ∧ wordWellFormed 0x800F = false := by decide
theorem test_illformed_family9 : wordWellFormed 0x9120 = false := by decide
theorem test_illformed_familyB : wordWellFormed 0xB300 = false := by decide
theorem test_illformed_familyE : wordWellFormed 0xE19E = false ∧ wordWellFormed 0xE1A1 = false := by decide
theorem test_illformed_familyF : wordWellFormed 0xF10A = false ∧ wordWellFormed 0xF129 = false := by decide
theorem test_illformed_image : imageWellFormed (List.replicate 3585 0) = false := by
  rw [imageWellFormed, List.length_replicate]
  decide
theorem test_wellformed_image : imageWellFormed (List.replicate 3584 0) = true := by
  rw [imageWellFormed, List.length_replicate]
  decide

/-! ## Decode: every constructor from a word written out from the patterns of R66 -/

theorem test_decode_cls : decode 0b0000000011100000 = .ok .cls := by decide
theorem test_decode_ret : decode 0b0000000011101110 = .ok .ret := by decide
theorem test_decode_jp : decode 0b0001101010111100 = .ok (.jpAddr 0xABC) := by decide
theorem test_decode_call : decode 0b0010001100000001 = .ok (.callAddr 0x301) := by decide
theorem test_decode_se_kk : decode 0b0011001100101010 = .ok (.seVxKk 3 0x2A) := by decide
theorem test_decode_sne_kk : decode 0b0100001100101011 = .ok (.sneVxKk 3 0x2B) := by decide
theorem test_decode_se_xy : decode 0b0101000100100000 = .ok (.seVxVy 1 2) := by decide
theorem test_decode_ld_kk : decode 0b0110101000000001 = .ok (.ldVxKk 10 0x01) := by decide
theorem test_decode_add_kk : decode 0b0111001011111111 = .ok (.addVxKk 2 0xFF) := by decide
theorem test_decode_ld_xy : decode 0b1000001101000000 = .ok (.ldVxVy 3 4) := by decide
theorem test_decode_or : decode 0b1000001101000001 = .ok (.orVxVy 3 4) := by decide
theorem test_decode_and : decode 0b1000001101000010 = .ok (.andVxVy 3 4) := by decide
theorem test_decode_xor : decode 0b1000001101000011 = .ok (.xorVxVy 3 4) := by decide
theorem test_decode_add_xy : decode 0b1000001101000100 = .ok (.addVxVy 3 4) := by decide
theorem test_decode_sub : decode 0b1000001101000101 = .ok (.subVxVy 3 4) := by decide
theorem test_decode_shr : decode 0b1000001101000110 = .ok (.shrVxVy 3 4) := by decide
theorem test_decode_subn : decode 0b1000001101000111 = .ok (.subnVxVy 3 4) := by decide
theorem test_decode_shl : decode 0b1000001101001110 = .ok (.shlVxVy 3 4) := by decide
theorem test_decode_ld_i : decode 0b1010111111111111 = .ok (.ldIAddr 0xFFF) := by decide
theorem test_decode_rnd : decode 0b1100001100001111 = .ok (.rndVxKk 3 0x0F) := by decide
theorem test_decode_drw : decode 0b1101000100100011 = .ok (.drwVxVyN 1 2 3) := by decide
theorem test_decode_ld_x_dt : decode 0b1111010000000111 = .ok (.ldVxDt 4) := by decide
theorem test_decode_ld_dt_x : decode 0b1111010000010101 = .ok (.ldDtVx 4) := by decide
theorem test_decode_ld_st_x : decode 0b1111000100011000 = .ok (.ldStVx 1) := by decide
theorem test_decode_add_i : decode 0b1111001000011110 = .ok (.addIVx 2) := by decide
theorem test_decode_bcd : decode 0b1111000000110011 = .ok (.ldBVx 0) := by decide
theorem test_decode_store : decode 0b1111001001010101 = .ok (.ldMemVx 2) := by decide
theorem test_decode_load : decode 0b1111001001100101 = .ok (.ldVxMem 2) := by decide

/-- The byte at the lower address is the high byte (T1), and the opcode-table number is the word (log 9). -/
theorem test_decode_bytes : decodeBytes [0x6A, 0x01, 0xFF] = .ok (.ldVxKk 10 0x01, [0xFF]) := by decide
theorem test_decode_truncated : decodeBytes [0x6A] = .error .truncated := by decide
theorem test_decode_table_word : decodeTableWord 16 0x6A01 = some (.ldVxKk 10 0x01) := by decide
theorem test_decode_table_word_none : decodeTableWord 16 0x9000 = none := by decide
/-- 30_encoding.md R72's example. -/
theorem test_encode_bytes : encodeBytes (.addVxVy 0 1) = [0x80, 0x14] := by decide

/-! ## The step cycle and faults -/

/-- T2: an odd `PC`. -/
theorem test_step_odd_pc : after (fun t => (t.V 10, t.pc)) (run1 (State.reset.setPc 0x0201) 0x6A01) =
    some (0x01, 0x0203) := by decide
/-- T3: the last word of memory. -/
theorem test_step_last_word : after (fun t => (t.V 10, t.pc, t.status)) (run1 (State.reset.setPc 0x0FFE) 0x6A01) =
    some (0x01, 0x1000, .running) := by decide
/-- T4 and T5: a fetch past memory. -/
theorem test_fetch_fault : after (fun t => (t.pc, t.status)) (step (State.reset.setPc 0x0FFF)) =
    some (0x0FFF, .faulted .outOfBoundsAccess 0x0FFF 0x1000) := by decide
theorem test_fetch_fault_above : after (fun t => (t.pc, t.status)) (step (State.reset.setPc 0x1002)) =
    some (0x1002, .faulted .outOfBoundsAccess 0x1002 0x1002) := by decide
/-- T6: unloaded memory. -/
theorem test_step_reset : after (fun t => (t.pc, t.status)) (step State.reset) =
    some (0x0202, .faulted .unrecognizedInstruction 0x0200 0x0000) := by decide
/-- E11. -/
theorem test_step_unrecognised : after (fun t => (t.pc, t.status)) (run1 State.reset 0x9000) =
    some (0x0202, .faulted .unrecognizedInstruction 0x0200 0x9000) := by decide
theorem test_step_faulted : step faultedState = .next faultedState := rfl

/-! ## Control flow (T10 to T28) -/

theorem test_ret : after (fun t => (t.pc, t.stack)) (run1 ((State.reset.setPc 0x0300).setStack [0x0402, 0x0206]) 0x00EE) =
    some (0x0402, [0x0206]) := by decide
theorem test_ret_empty : after (fun t => (t.pc, t.stack, t.status)) (run1 (State.reset.setPc 0x0300) 0x00EE) =
    some (0x0302, [], .faulted .stackUnderflow 0x0300 0) := by decide
theorem test_jp : after State.pc (run1 (State.reset.setPc 0x0F00) 0x1ABC) = some 0x0ABC := by decide
theorem test_call : after (fun t => (t.pc, t.stack)) (run1 (State.reset.setPc 0x0FFE) 0x2300) =
    some (0x0300, [0x1000]) := by decide
theorem test_se_kk_taken : after State.pc (run1 (State.reset.setV 3 0x2A) 0x332A) = some 0x0204 := by decide
theorem test_se_kk_not : after State.pc (run1 (State.reset.setV 3 0x2A) 0x332B) = some 0x0202 := by decide
theorem test_sne_kk_taken : after State.pc (run1 (State.reset.setV 3 0x2A) 0x432B) = some 0x0204 := by decide
theorem test_sne_kk_not : after State.pc (run1 (State.reset.setV 3 0x2A) 0x432A) = some 0x0202 := by decide
theorem test_se_xy_taken : after State.pc (run1 ((State.reset.setV 1 7).setV 2 7) 0x5120) = some 0x0204 := by decide
theorem test_se_xy_not : after State.pc (run1 ((State.reset.setV 1 7).setV 2 8) 0x5120) = some 0x0202 := by decide

/-! ## Arithmetic, logic, shifts, random (T30 to T74) -/

theorem test_ld_kk : after view (run1 (init 9 9 9 0) 0x6FAB) = some (9, 9, 0xAB, 0x0202) := by decide
/-- E4 and T34: no flag. -/
theorem test_add_kk : after view (run1 (init 0xFF 0 0 0) 0x7001) = some (0x00, 0, 0, 0x0202) := by decide
theorem test_add_kk_vf : after view (run1 (init 0 0 0xFF 0) 0x7F01) = some (0, 0, 0x00, 0x0202) := by decide
theorem test_ld_xy : after view (run1 (init 1 0x9C 7 0) 0x8010) = some (0x9C, 0x9C, 7, 0x0202) := by decide
theorem test_or : after view (run1 (init 0xF0 0x0F 1 0) 0x8011) = some (0xFF, 0x0F, 1, 0x0202) := by decide
theorem test_and : after view (run1 (init 0xFC 0x3F 1 0) 0x8012) = some (0x3C, 0x3F, 1, 0x0202) := by decide
theorem test_xor : after view (run1 (init 0xFF 0x0F 1 0) 0x8013) = some (0xF0, 0x0F, 1, 0x0202) := by decide
/-- E5; T44: the carry stands. -/
theorem test_add_xy : after view (run1 (init 200 100 0 0) 0x8014) = some (44, 100, 1, 0x0202) := by decide
theorem test_add_xy_vf : after view (run1 (init 0 100 200 0) 0x8F14) = some (0, 100, 1, 0x0202) := by decide
/-- E6. -/
theorem test_sub : after view (run1 (init 3 10 1 0) 0x8015) = some (249, 10, 0, 0x0202) := by decide
/-- T48. -/
theorem test_sub_equal : after view (run1 (init 7 7 0 0) 0x8015) = some (0, 7, 1, 0x0202) := by decide
/-- T53: the source is `V[1]`; T57: the shifted value stands. -/
theorem test_shr : after view (run1 (init 0xFF 0x04 1 0) 0x8016) = some (0x02, 0x04, 0, 0x0202) := by decide
theorem test_shr_vf : after view (run1 (init 0 0x05 9 0) 0x8F16) = some (0, 0x05, 0x02, 0x0202) := by decide
/-- T61, T63. -/
theorem test_subn : after view (run1 (init 10 3 1 0) 0x8017) = some (249, 3, 0, 0x0202) := by decide
theorem test_subn_vf : after view (run1 (init 0 10 3 0) 0x8F17) = some (0, 10, 1, 0x0202) := by decide
/-- T67, T69. -/
theorem test_shl : after view (run1 (init 0 0x81 0 0) 0x801E) = some (0x02, 0x81, 1, 0x0202) := by decide
theorem test_shl_old_vf : after view (run1 (init 0 0 0x81 0) 0x80FE) = some (0x02, 0, 1, 0x0202) := by decide
/-- T73: any draw under the mask 0. -/
theorem test_rnd_zero : ∃ t, exec (.rndVxKk 0 0x00) (init 9 0 0 0) = .next t ∧ t.V 0 = 0x00 :=
  ⟨_, rfl, by simp⟩
/-- T74: the bits outside the mask are 0. -/
theorem test_rnd_mask : ∃ t, exec (.rndVxKk 1 0xF0) (init 9 0 0 0) = .next t ∧ t.V 1 &&& 0x0F = 0 :=
  ⟨_, rfl, by simp [BitVec.and_assoc]⟩

/-! ## Index, BCD, block transfers (T80 to T103) -/

/-- T80, T81. -/
theorem test_ld_i : after State.i (run1 (init 0 0 0 0xFFFF) 0xA300) = some 0x0300 := by decide
theorem test_ld_i_top : after State.i (run1 State.reset 0xAFFF) = some 0x0FFF := by decide
/-- T83, T84. -/
theorem test_add_i : after (fun t => (t.i, t.V VF, t.status)) (run1 (init 0xFF 0 0 0x0FFF) 0xF01E) =
    some (0x10FE, 0, .running) := by decide
theorem test_add_i_wrap : after (fun t => (t.i, t.V VF)) (run1 (init 2 0 0 0xFFFF) 0xF01E) = some (0x0001, 0) := by
  decide
/-- E7; T92: nothing written. -/
theorem test_bcd : after (bytesAt [0x300, 0x301, 0x302]) (run1 (init 234 0 0 0x0300) 0xF033) = some [2, 3, 4] := by
  decide
theorem test_bcd_fault : after (fun t => (t.pc, t.status, bytesAt [0xFFE, 0xFFF] t)) (run1 (init 255 0 0 0x0FFE) 0xF033) =
    some (0x0202, .faulted .outOfBoundsAccess 0x0200 0x1000, [0, 0]) := by decide
/-- T103: a store into the font; T96: out of bounds. -/
theorem test_store_font : after (fun t => (bytesAt [0x000, 0x001] t, t.i)) (run1 (init 0x12 0 0 0) 0xF055) =
    some ([0x12, 0x90], 0) := by decide
theorem test_store_fault : after (fun t => (t.status, t.mem.length)) (run1 (init 1 2 3 0x0FF1) 0xFF55) =
    some (.faulted .outOfBoundsAccess 0x0200 0x1000, 2) := by decide
/-- T100 and T101. -/
theorem test_load : after (fun t => (t.V 0, t.V 1, t.i)) (run1 ((init 1 2 0 0x0FFF).storeBytes 0xFFF [0x77]) 0xF065) =
    some (0x77, 2, 0x0FFF) := by decide
theorem test_load_fault : after (fun t => (t.V 0, t.V 1, t.status))
    (run1 ((init 1 2 0 0x0FFF).storeBytes 0xFFF [0x77]) 0xF165) =
    some (1, 2, .faulted .outOfBoundsAccess 0x0200 0x1000) := by decide

/-! ## Display (T110 to T120) -/

/-- T120: CLS does not write `VF`. -/
theorem test_cls : after (fun t => (cellsAt [(5, 5), (31, 63)] t, t.V VF))
    (run1 (withCells [(5, 5), (31, 63)] (init 0 0 1 0)) 0x00E0) = some ([false, false], 1) := by decide +kernel

/-- The start of T111 and T112. -/
def cornerStart : State :=
  withCells [(31, 63), (31, 0), (31, 7), (30, 63)] ((init 63 31 0 0x300).storeBytes 0x300 [0x7F])

/-- T111: the 0 bit writes its cell off, nothing is reported. -/
theorem test_drw_overwrite :
    after (fun t => (cellsAt [(31, 63), (31, 0), (31, 6), (31, 7), (30, 63), (30, 0)] t, t.V VF)) (run1 cornerStart 0xD011) =
    some ([false, true, true, true, true, false], 0) := by decide +kernel
/-- T112: the same start with `DRAW_MODE = xor`. -/
theorem test_drw_xor :
    after (fun t => (cellsAt [(31, 63), (31, 0), (31, 6), (31, 7), (30, 63), (30, 0)] t, t.V VF))
      (run1 (xorMachine cornerStart) 0xD011) =
    some ([true, false, true, true, true, false], 1) := by decide +kernel

/-! ## Timers, tick unit, host (T130 to T154) -/

theorem test_ld_x_dt : after (fun t => (t.V 4, t.dt)) (run1 (State.reset.setDt 0x3C) 0xF407) = some (0x3C, 0x3C) := by
  decide
theorem test_ld_dt_x : after State.dt (run1 (State.reset.setV 4 0x3C) 0xF415) = some 0x3C := by decide
theorem test_ld_st_x : after (fun t => (t.st, t.gate)) (run1 (State.reset.setV 1 0x02) 0xF118) = some (2, true) := by
  decide
/-- T133, T135, T138. -/
theorem test_tick_zero : State.reset.tick.dt = 0 ∧ State.reset.tick.gate = false := by decide
theorem test_tick : ((State.reset.setDt 255).setSt 2).tick.dt = 254 ∧ ((State.reset.setDt 255).setSt 2).tick.st = 1 := by
  decide
theorem test_tick_faulted : (faultedState.setDt 5).tick.dt = 5 := by decide
/-- T139; a write to a faulted machine is ignored (60_exceptions.md R151). -/
theorem test_write_key : (State.reset.writeKey 3 true).readKey 3 = true ∧ (faultedState.writeKey 3 true).readKey 3 = false := by
  decide
/-- 60_exceptions.md R141: the codes. -/
theorem test_cause_codes : Status.running.code = 0 ∧ Cause.unrecognizedInstruction.code = 1 ∧
    Cause.stackUnderflow.code = 2 ∧ Cause.outOfBoundsAccess.code = 3 ∧ Cause.registerIndexOverflow.code = 4 ∧
    Cause.loadOverflow.code = 5 := by decide
/-- T154: three bytes. -/
theorem test_load_image : bytesAt [0x1FF, 0x200, 0x201, 0x202, 0x203] (State.reset.load [0x12, 0x00, 0xFF]) =
    [0, 0x12, 0x00, 0xFF, 0] := by decide
/-- T152: 3585 bytes, `info = 0x0E01`. -/
theorem test_load_overflow : (State.reset.load (List.replicate 3585 0)).status = .faulted .loadOverflow 0x0200 0x0E01 := by
  rw [State.load_of_gt (by rw [List.length_replicate]; decide), List.length_replicate]
  rfl
/-- 10_state.md R28: the font stands at 0x000 to 0x04F, zero from 0x050. -/
theorem test_reset_memory : bytesAt [0x000, 0x001, 0x04F, 0x050, 0xFFF] State.reset = [0xF0, 0x90, 0x80, 0, 0] := by
  decide
theorem test_reset_mem_wf : Memory.wf State.reset.cfg State.reset.mem := Memory.wf_nil _
/-- Writing the reset contents back removes the cell (log 7). -/
theorem test_mem_canonical : ((State.reset.storeBytes 0x300 [1, 2]).storeBytes 0x300 [0]).mem = [(0x301, 2)] := by decide

/-! ## Witnesses: states and operands that meet the hypotheses of the statements -/

theorem witness_EncodeOfDecodeIsSame : decode 0xFF65 = .ok (.ldVxMem 15) := by decide
theorem witness_OpcodeRowsAreDisjoint :
    (⟨"SHL_Vx_Vy", 0x800E, 0xF00F⟩ : Row) ∈ opcodeTable ∧ (⟨"SHL_Vx_Vy", 0x800E, 0xF00F⟩ : Row).selects 0x8FFE = true := by
  decide
theorem witness_UnrecognisedWordsByFamily : decode 0x9000 = .error (.unrecognised 0x9000) ∧
    decode 0x00E1 = .error (.unrecognised 0x00E1) ∧ decode 0x5001 = .error (.unrecognised 0x5001) ∧
    decode 0x8FFF = .error (.unrecognised 0x8FFF) ∧ decode 0xB000 = .error (.unrecognised 0xB000) ∧
    decode 0xE000 = .error (.unrecognised 0xE000) ∧ decode 0xFFFF = .error (.unrecognised 0xFFFF) := by decide

/-- A machine with the word `w` at 0xFFE, the last address a fetch succeeds at. -/
def lastWord (w : Nat) : State := (State.reset.setPc 0x0FFE).withFetchWord 16 w

theorem witness_StepRuns_not_running : ¬ Running faultedState := by decide
theorem witness_StepRuns_fetch_fault :
    Running (State.reset.setPc 0x0FFF) ∧ 4096 ≤ (State.reset.setPc 0x0FFF).pc.toNat + 1 := by decide
theorem witness_StepRuns_decoded : Running (lastWord 0x6A01) ∧ (lastWord 0x6A01).pc.toNat + 1 < 4096 ∧
    decode (wordOfBytes ((lastWord 0x6A01).byteAt (lastWord 0x6A01).pc.toNat)
      ((lastWord 0x6A01).byteAt ((lastWord 0x6A01).pc.toNat + 1))) = .ok (.ldVxKk 10 1) := by decide
theorem witness_StepRuns_unrecognised : Running (lastWord 0x9000) ∧ (lastWord 0x9000).pc.toNat + 1 < 4096 ∧
    decode (wordOfBytes ((lastWord 0x9000).byteAt (lastWord 0x9000).pc.toNat)
      ((lastWord 0x9000).byteAt ((lastWord 0x9000).pc.toNat + 1))) = .error (.unrecognised 0x9000) := by decide
theorem witness_FetchReadsBigEndianOrFaults :
    (Running (State.reset.setPc 0x0FFF) ∧ 0xFFF ≤ (State.reset.setPc 0x0FFF).pc.toNat) ∧
    (State.reset.setPc 0x0FFE).pc.toNat < 0xFFF ∧ (lastWord 0x6A01).fetch = some 0x6A01 := by decide
theorem witness_UnrecognisedWordFaults :
    Running State.reset ∧ State.reset.fetch = some 0x0000 ∧ wordWellFormed 0x0000 = false := by decide
theorem witness_FaultedMachineIsFrozen :
    ¬ Running (System.mk faultedState .started).state ∧
    (System.mk faultedState .started).act .tick = .next ⟨faultedState, .started⟩ ∧
    (System.mk faultedState .started).act .step = .next ⟨faultedState, .started⟩ :=
  ⟨by decide, rfl, rfl⟩
theorem witness_FaultsArePrecise : Running State.reset ∧ ∃ t, step State.reset = .next t ∧ ¬ Running t :=
  ⟨rfl, _, rfl, by decide⟩
theorem witness_FaultsArePrecise_fetch : Running (State.reset.setPc 0x0FFF) ∧ 0xFFF ≤ (State.reset.setPc 0x0FFF).pc.toNat ∧
    ∃ t, step (State.reset.setPc 0x0FFF) = .next t ∧ ¬ Running t :=
  ⟨rfl, by decide, _, rfl, by decide⟩
theorem witness_DataAccessFaults :
    Running (init 0 0 0 0x0FFE) ∧ 1 ≤ (Instr.ldBVx 0).dataCount ∧
    4096 ≤ (init 0 0 0 0x0FFE).i.toNat + ((Instr.ldBVx 0).dataCount - 1) ∧
    ∃ t a info, exec (.ldBVx 0) (init 0 0 0 0x0FFE) = .next t ∧ t.status = .faulted .outOfBoundsAccess a info :=
  ⟨by decide, by decide, by decide, _, _, _, rfl, rfl⟩
theorem witness_RetPopsOrFaults :
    (State.reset.setStack [0x0202]).stack = [0x0202] ∧ State.reset.stack = [] ∧ (State.reset.setPc 0x0302).pc = 0x0300 + 2 := by
  decide
theorem witness_CallThenRetReturns : ∃ t u : State, exec (.callAddr 0x300) (State.reset.setPc 0x0202) = .next t ∧ u.stack = t.stack ∧
    u.pc ≠ t.pc :=
  ⟨_, State.reset.setStack [0x0202], rfl, rfl, by decide⟩
theorem witness_ControlTransfer_next : ∃ t, step (State.reset.withFetchWord 16 0x6005) = .next t ∧ Running t ∧ t.pc = 0x0202 :=
  ⟨_, rfl, by decide, by decide⟩
theorem witness_ControlTransfer_skip : ∃ t, step ((State.reset.setPc 0x0FFE).withFetchWord 16 0x3000) = .next t ∧ Running t ∧
    t.pc = 0x1002 :=
  ⟨_, rfl, by decide, by decide⟩
theorem witness_ControlTransfer_call : ∃ t, step (State.reset.withFetchWord 16 0x2FFF) = .next t ∧ Running t ∧
    t.stack = [0x0202] :=
  ⟨_, rfl, by decide, by decide⟩
theorem witness_ControlTransfer_ret : ∃ t, step ((State.reset.setStack [0x1000]).withFetchWord 16 0x00EE) = .next t ∧
    Running t ∧ t.pc = 0x1000 :=
  ⟨_, rfl, by decide, by decide⟩
theorem witness_not_flag_register : (0 : Reg) ≠ VF ∧ (14 : Reg) ≠ VF := by decide
theorem witness_SameRegisterForms : ∃ t, exec (.shlVxVy 14 14) State.reset = .next t ∧ (14 : Reg) ≠ VF :=
  ⟨_, rfl, by decide⟩
theorem witness_RandomByte : (0x00 : Byte) = 0x00 ∧ (0xFF : Byte) = 0xFF := by decide
theorem witness_BcdStore :
    (init 0 0 0 0x0FFD).i.toNat + 2 < 4096 ∧ 4096 ≤ (init 0 0 0 0x0FFE).i.toNat + 2 := by decide
theorem witness_BlockTransfers :
    (init 0 0 0 0x0FF0).i.toNat + (15 : Reg).val < 4096 ∧ 4096 ≤ (init 0 0 0 0x0FF1).i.toNat + (15 : Reg).val ∧
    (init 0 0 0 0x0FFF).i.toNat + (0 : Reg).val < 4096 ∧ 4096 ≤ (init 0 0 0 0x1000).i.toNat + (0 : Reg).val := by decide
theorem witness_BlockTransferRoundTrips : ∃ t u v, Running t ∧ exec (.ldMemVx 2) (init 0x11 0x22 0 0x400) = .next t ∧
    u.i = t.i ∧ (∀ a, u.byteAt a = t.byteAt a) ∧ exec (.ldVxMem 2) u = .next v ∧ u.V 0 ≠ 0x11 :=
  ⟨_, ((init 0x11 0x22 0 0x400).storeBytes 0x400 [0x11, 0x22, 0]).setV 0 0x99, _, rfl, rfl, rfl, fun _ => rfl, rfl,
    by decide⟩
theorem witness_StoredInstructionIsFetchedNext : ∃ t, Running t ∧ 1 ≤ (1 : Reg).val ∧ (init 0x60 0x07 0 0x200).i =
    (init 0x60 0x07 0 0x200).pc ∧ exec (.ldMemVx 1) (init 0x60 0x07 0 0x200) = .next t :=
  ⟨_, rfl, by decide, by decide, rfl⟩
theorem witness_DrawOverwrites : cornerStart.cfg.drawMode = .overwrite ∧
    ¬ (1 ≤ (1 : Fin 16).val ∧ 4096 ≤ cornerStart.i.toNat + (1 : Fin 16).val - 1) ∧
    (31 : Fin 32).val = ((cornerStart.V 1).toNat + 0) % 32 ∧ (63 : Fin 64).val = ((cornerStart.V 0).toNat + 0) % 64 ∧
    (0 : Fin 64).val = ((cornerStart.V 0).toNat + 1) % 64 := by decide +kernel
theorem witness_DrawOverwrites_other_cell : ∀ r < (1 : Fin 16).val, ∀ c < 8,
    ¬ ((30 : Fin 32).val = ((cornerStart.V 1).toNat + r) % 32 ∧ (63 : Fin 64).val = ((cornerStart.V 0).toNat + c) % 64) := by
  decide +kernel
theorem witness_DrawBounds :
    (¬ (1 ≤ (3 : Fin 16).val ∧ 4096 ≤ (init 0 0 0 0x0FFD).i.toNat + (3 : Fin 16).val - 1)) ∧
    (1 ≤ (3 : Fin 16).val ∧ 4096 ≤ (init 0 0 0 0x0FFE).i.toNat + (3 : Fin 16).val - 1) ∧
    (¬ (1 ≤ (0 : Fin 16).val ∧ 4096 ≤ (init 0 0 0 0x2000).i.toNat + (0 : Fin 16).val - 1)) := by decide
theorem witness_DrawXors : (xorMachine cornerStart).cfg.drawMode = .xor ∧
    Screen.cell (xorMachine cornerStart).fb 31 0 = true ∧
    ((xorMachine cornerStart).byteAt (0x300 + 0)).getLsbD (7 - 1) = true := by decide +kernel
theorem witness_TickCountsDown : Running ((State.reset.setDt 1).setSt 0) := by decide
theorem witness_LoadCopiesImageOrFaults :
    (List.replicate 3584 (0 : Byte)).length ≤ 3584 ∧ 3584 < (List.replicate 3585 (0 : Byte)).length := by
  rw [List.length_replicate, List.length_replicate]
  decide
theorem witness_LoadOnlyOnce_fresh : System.boot.phase = .fresh ∧ Running System.boot.state ∧
    (∃ m', System.boot.act .tick = .next m' ∧ m'.phase = .fresh) ∧ ∃ m', System.boot.act .step = .next m' :=
  ⟨rfl, rfl, ⟨_, rfl, rfl⟩, _, rfl⟩
theorem witness_LoadOnlyOnce_again : ∃ m', System.boot.act (.load [0x12, 0x00]) = .next m' ∧ m'.phase ≠ .fresh ∧
    m'.act (.load []) = .refused .loadOutsideLifecycle :=
  ⟨_, rfl, by decide, rfl⟩
/-- A fresh machine that has faulted meets the refusal clause (R182: "Precondition: `STATUS = Running`"). -/
theorem witness_LoadOnlyOnce_fresh_faulted :
    ¬ ((System.mk faultedState .fresh).phase = .fresh ∧ Running (System.mk faultedState .fresh).state) ∧
    (System.mk faultedState .fresh).act (.load [0x12, 0x00]) = .refused .loadOutsideLifecycle :=
  ⟨by decide, rfl⟩
/-- A running machine after a step meets it too (R182: "A `load` after the first `step`"). -/
theorem witness_LoadOnlyOnce_after_step :
    ∃ m', (System.mk (State.reset.withFetchWord 16 0x6005) .fresh).act .step = .next m' ∧ Running m'.state ∧
      ¬ (m'.phase = .fresh ∧ Running m'.state) ∧ m'.act (.load [0x12, 0x00]) = .refused .loadOutsideLifecycle :=
  ⟨_, rfl, rfl, by decide, rfl⟩
/-- An RND executed, then a `reset` and a tick: the counter is 1 larger than before the RND. -/
theorem witness_DrawsFresh : ∃ m' m'', Running (State.reset.withFetchWord 16 0xC30F) ∧
    (State.reset.withFetchWord 16 0xC30F).fetch = some 0xC30F ∧ decode 0xC30F = .ok (.rndVxKk 3 0x0F) ∧
    (System.mk (State.reset.withFetchWord 16 0xC30F) .loaded).act .step = .next m' ∧
    m'.run [.reset, .tick] = .next m'' ∧ m''.state.draws = 1 :=
  ⟨_, _, rfl, by decide, by decide, rfl, rfl, rfl⟩
theorem witness_HostWrites : Running State.reset ∧ (0 : Fin 16) ≠ 15 := by decide
theorem witness_ResetGivesEveryValue : ∃ m', (System.mk faultedState .started).act .reset = .next m' ∧
    m'.state = State.reset :=
  ⟨_, rfl, rfl⟩
theorem witness_RegistersWrittenOnlyByTable : (∃ t, exec (.ldVxMem 3) State.reset = .next t) ∧
    ¬ (Instr.ldVxMem 3).writesV 4 :=
  ⟨⟨_, rfl⟩, by simp [Instr.writesV]⟩
theorem witness_StateWritten_i : ∃ t, exec (.ldIAddr 0x300) State.reset = .next t ∧ t.i ≠ State.reset.i :=
  ⟨_, rfl, by decide⟩
theorem witness_StateWritten_timers : (∃ t, exec (.ldDtVx 0) (init 1 0 0 0) = .next t ∧ t.dt ≠ (init 1 0 0 0).dt) ∧
    ∃ t, exec (.ldStVx 0) (init 1 0 0 0) = .next t ∧ t.st ≠ (init 1 0 0 0).st :=
  ⟨⟨_, rfl, by decide⟩, _, rfl, by decide⟩
theorem witness_StateWritten_stack : ∃ t, exec (.callAddr 0x300) State.reset = .next t ∧ t.stack ≠ State.reset.stack :=
  ⟨_, rfl, by decide⟩
theorem witness_StateWritten_bytes : ∃ t, exec (.ldBVx 0) (init 234 0 0 0x300) = .next t ∧
    t.byteAt 0x300 ≠ (init 234 0 0 0x300).byteAt 0x300 :=
  ⟨_, rfl, by decide⟩
theorem witness_StateWritten_screen : ∃ t, exec .cls cornerStart = .next t ∧
    Screen.cell t.fb 31 63 ≠ Screen.cell cornerStart.fb 31 63 :=
  ⟨_, rfl, by decide +kernel⟩
theorem witness_StateWritten_draws : ∃ t, exec (.rndVxKk 0 0xFF) State.reset = .next t ∧ t.draws ≠ State.reset.draws :=
  ⟨_, rfl, by decide⟩
theorem witness_Noninterference : ∃ t, step (State.reset.withFetchWord 16 0xF018) = .next t ∧ Running t := ⟨_, rfl, rfl⟩
theorem reset_inv : Inv State.reset :=
  ⟨by decide, by simp [State.reset, State.resetWith], Memory.wf_nil _, by simp [State.reset, State.resetWith]⟩
theorem witness_StepKeepsInvariant : Inv State.reset ∧ ∃ t, step State.reset = .next t := ⟨reset_inv, _, rfl⟩
theorem witness_Schedules : Inv System.boot.state ∧
    (∃ m', System.boot.run [.load [0x12, 0x00], .tick, .step, .writeKey 3 true, .step] = .next m' ∧ Running m'.state) ∧
    ∃ m', System.boot.run [.reset, .tick, .writeDt 5] = .next m' :=
  ⟨reset_inv, ⟨_, rfl, rfl⟩, _, rfl⟩
theorem witness_SchedulesWithoutLoadRun : ∀ bytes, Event.load bytes ∉ [Event.tick, Event.step] := by simp
theorem witness_SafeRun : SafeRun System.boot [.load [0x12, 0x00], .step, .tick, .step] := ⟨_, rfl, rfl⟩

end Sys2Proof.Tests
end

section
/-! The decoder against the opcode table (30_encoding.md R65, R66), and the step cycle clause by clause (R64). -/

namespace Sys2Proof

/-! ## Decode through classify (R65) -/

theorem decode_eq_ok_iff {w : Word} {i : Instr} : decode w = .ok i ↔ classify w = some i := by
  unfold decode
  cases classify w <;> simp

/-! ## A classified word is the word of its instruction (R72) -/

theorem encode_of_classifyAlu {x y : Reg} {n : BitVec 4} {i : Instr} (h : classifyAlu x y n.toNat = some i) :
    encode i = packXY 8#4 x y n := by
  unfold classifyAlu at h
  split at h
  case h_10 => cases h
  all_goals
    rename_i hn
    cases h
    rw [(BitVec.toNat_eq_nat.1 hn).2]
    rfl

theorem encode_of_classifyF {x : Reg} {kk : Byte} {i : Instr} (h : classifyF x kk.toNat = some i) :
    encode i = packXF x kk := by
  unfold classifyF at h
  split at h
  case h_8 => cases h
  all_goals
    rename_i hk
    cases h
    rw [(BitVec.toNat_eq_nat.1 hk).2]
    rfl

/-- The family nibble of a word with that family number. -/
theorem fieldOp_eq_ofNat {w : Word} {k : Nat} (h : (fieldOp w).toNat = k) : fieldOp w = BitVec.ofNat 4 k :=
  (BitVec.toNat_eq_nat.1 h).2

/-- No bit of a recognised word is dropped: each family's format packs the fields back (R62). -/
theorem encode_of_classify {w : Word} {i : Instr} (h : classify w = some i) : encode i = w := by
  have hnnn := packNNN_fields w
  have hxkk := packXKK_fields w
  have hxy := packXY_fields w
  simp only [classify] at h
  split at h
  -- family 0: the two literal words
  case h_1 =>
    split_ifs at h with hcls hret
    · cases h; exact hcls.symm
    · cases h; exact hret.symm
  -- family 5: `n` is the literal 0
  case h_6 hop =>
    split_ifs at h with hn
    rw [hn, fieldOp_eq_ofNat hop] at hxy
    cases h
    exact hxy
  case h_9 hop =>
    rw [fieldOp_eq_ofNat hop] at hxy
    exact (encode_of_classifyAlu h).trans hxy
  case h_13 hop =>
    rw [fieldOp_eq_ofNat hop] at hxkk
    exact (encode_of_classifyF h).trans hxkk
  case h_14 => cases h
  -- families without a sub-opcode: formats `NNN`, `XKK` and `XYN`
  all_goals
    rename_i hop
    rw [fieldOp_eq_ofNat hop] at hnnn hxkk hxy
    cases h
    assumption

theorem encodesToRow_statement : ∀ i : Instr, Laws.EncodesToRow.Statement i
  | .cls => Laws.EncodesToRow.cls
  | .ret => Laws.EncodesToRow.ret
  | .jpAddr nnn => Laws.EncodesToRow.jpAddr nnn
  | .callAddr nnn => Laws.EncodesToRow.callAddr nnn
  | .seVxKk x kk => Laws.EncodesToRow.seVxKk x kk
  | .sneVxKk x kk => Laws.EncodesToRow.sneVxKk x kk
  | .seVxVy x y => Laws.EncodesToRow.seVxVy x y
  | .ldVxKk x kk => Laws.EncodesToRow.ldVxKk x kk
  | .addVxKk x kk => Laws.EncodesToRow.addVxKk x kk
  | .ldVxVy x y => Laws.EncodesToRow.ldVxVy x y
  | .orVxVy x y => Laws.EncodesToRow.orVxVy x y
  | .andVxVy x y => Laws.EncodesToRow.andVxVy x y
  | .xorVxVy x y => Laws.EncodesToRow.xorVxVy x y
  | .addVxVy x y => Laws.EncodesToRow.addVxVy x y
  | .subVxVy x y => Laws.EncodesToRow.subVxVy x y
  | .shrVxVy x y => Laws.EncodesToRow.shrVxVy x y
  | .subnVxVy x y => Laws.EncodesToRow.subnVxVy x y
  | .shlVxVy x y => Laws.EncodesToRow.shlVxVy x y
  | .ldIAddr nnn => Laws.EncodesToRow.ldIAddr nnn
  | .rndVxKk x kk => Laws.EncodesToRow.rndVxKk x kk
  | .drwVxVyN x y n => Laws.EncodesToRow.drwVxVyN x y n
  | .ldVxDt x => Laws.EncodesToRow.ldVxDt x
  | .ldDtVx x => Laws.EncodesToRow.ldDtVx x
  | .ldStVx x => Laws.EncodesToRow.ldStVx x
  | .addIVx x => Laws.EncodesToRow.addIVx x
  | .ldBVx x => Laws.EncodesToRow.ldBVx x
  | .ldMemVx x => Laws.EncodesToRow.ldMemVx x
  | .ldVxMem x => Laws.EncodesToRow.ldVxMem x

/-- A decoded word selects the row of its instruction. -/
theorem selects_of_classify {w : Word} {i : Instr} (h : classify w = some i) :
    ∃ r ∈ opcodeTable, r.mnemonic = i.mnemonic ∧ r.selects w = true :=
  encode_of_classify h ▸ encodesToRow_statement i

/-! ## A selected row is decoded -/

/-- Operands do not choose the operation of family 8. -/
theorem mnemonic_classifyAlu (x y x' y' : Reg) (n : Nat) :
    (classifyAlu x y n).map Instr.mnemonic = (classifyAlu x' y' n).map Instr.mnemonic := by
  unfold classifyAlu
  split <;> rfl

theorem mnemonic_classifyF (x x' : Reg) (kk : Nat) :
    (classifyF x kk).map Instr.mnemonic = (classifyF x' kk).map Instr.mnemonic := by
  unfold classifyF
  split <;> rfl

/-- The mnemonic depends on the family and, where the family has one, the sub-opcode (R65): the whole word in family 0,
`n` in families 5 and 8, `kk` in family F. -/
theorem mnemonic_classify_congr {v w : Word} (hop : fieldOp v = fieldOp w) (h0 : fieldOp w = 0#4 → v = w)
    (hn : fieldOp w = 5#4 ∨ fieldOp w = 8#4 → fieldN v = fieldN w)
    (hk : fieldOp w = 15#4 → fieldKK v = fieldKK w) :
    (classify v).map Instr.mnemonic = (classify w).map Instr.mnemonic := by
  unfold classify
  simp only [hop]
  split
  case h_1 h => rw [h0 (fieldOp_eq_ofNat h)]
  case h_6 h =>
    rw [hn (.inl (fieldOp_eq_ofNat h))]
    split <;> rfl
  case h_9 h =>
    rw [hn (.inr (fieldOp_eq_ofNat h))]
    apply mnemonic_classifyAlu
  case h_13 h =>
    rw [hk (fieldOp_eq_ofNat h)]
    apply mnemonic_classifyF
  all_goals rfl

/-- The four shapes of a row: the mask keeps the family and the sub-opcode of the row's `match`, and no other bit. -/
theorem opcodeTable_masks : ∀ r ∈ opcodeTable,
    r.mask = 0xFFFF#16 ∨
    (r.mask = 0xF000#16 ∧ fieldX r.bits = 0#4 ∧ fieldY r.bits = 0#4 ∧ fieldN r.bits = 0#4 ∧
      fieldOp r.bits ∉ [0#4, 5#4, 8#4, 15#4]) ∨
    (r.mask = 0xF00F#16 ∧ fieldX r.bits = 0#4 ∧ fieldY r.bits = 0#4 ∧ fieldOp r.bits ∉ [0#4, 15#4]) ∨
    (r.mask = 0xF0FF#16 ∧ fieldX r.bits = 0#4 ∧ fieldOp r.bits = 15#4) := by
  decide

/-- The `match` word of a row is itself an instruction of the row. -/
theorem mnemonic_classify_bits : ∀ r ∈ opcodeTable, (classify r.bits).map Instr.mnemonic = some r.mnemonic := by
  decide

theorem opcodeTable_mnemonics_nodup : (opcodeTable.map Row.mnemonic).Nodup := by
  decide

/-- A word that selects a row decodes as the row's `match` word does, up to the operands. -/
theorem mnemonic_classify_of_selects {w : Word} {r : Row} (hr : r ∈ opcodeTable) (h : w &&& r.mask = r.bits) :
    (classify w).map Instr.mnemonic = some r.mnemonic := by
  rw [← mnemonic_classify_bits r hr]
  rcases opcodeTable_masks r hr with hm | ⟨hm, hx, hy, hn, hop⟩ | ⟨hm, hx, hy, hop⟩ | ⟨hm, hx, hop⟩ <;> rw [hm] at h
  · rw [← h, show w &&& 0xFFFF#16 = w from BitVec.and_allOnes]
  · have hw := (mask_F000 _ _ hx hy hn).1 h
    apply mnemonic_classify_congr hw <;> simp_all
  · obtain ⟨hw, hn⟩ := (mask_F00F _ _ hx hy).1 h
    apply mnemonic_classify_congr hw <;> simp_all
  · obtain ⟨hw, hk⟩ := (mask_F0FF _ _ hx).1 h
    apply mnemonic_classify_congr hw <;> simp_all

/-! ## The decoder is the table (R66) -/

theorem selects_iff_decode {w : Word} {r : Row} (hr : r ∈ opcodeTable) :
    w &&& r.mask = r.bits ↔ ∃ i, decode w = .ok i ∧ i.mnemonic = r.mnemonic := by
  simp only [decode_eq_ok_iff]
  constructor
  · intro h
    exact Option.map_eq_some_iff.1 (mnemonic_classify_of_selects hr h)
  · rintro ⟨i, hi, hmn⟩
    obtain ⟨q, hq, hqi, hsel⟩ := selects_of_classify hi
    have hqr : q = r := List.inj_on_of_nodup_map opcodeTable_mnemonics_nodup hq hr (hqi.trans hmn)
    rw [← hqr]
    exact beq_iff_eq.1 hsel

theorem wordWellFormed_iff {w : Word} : wordWellFormed w = true ↔ ∃ r ∈ opcodeTable, w &&& r.mask = r.bits := by
  simp [wordWellFormed, Row.selects]

theorem decode_ok_iff_wordWellFormed (w : Word) : (∃ i, decode w = .ok i) ↔ wordWellFormed w = true := by
  rw [wordWellFormed_iff]
  constructor
  · rintro ⟨i, hi⟩
    obtain ⟨r, hr, hmn, -⟩ := selects_of_classify (decode_eq_ok_iff.1 hi)
    exact ⟨r, hr, (selects_iff_decode hr).2 ⟨i, hi, hmn.symm⟩⟩
  · rintro ⟨r, hr, h⟩
    obtain ⟨i, hi, -⟩ := (selects_iff_decode hr).1 h
    exact ⟨i, hi⟩

/-- Settles O4: a recognised word is the word of its instruction, which selects the instruction's row; and a word that
selects a row decodes as the row's own `match` word does. -/
theorem decodeAcceptsExactlyTheTable : Obligations.DecodeAcceptsExactlyTheTable :=
  ⟨rfl, fun w => ⟨fun _ hr => selects_iff_decode hr, decode_ok_iff_wordWellFormed w⟩⟩

/-! ## The step cycle (R64) -/

open Machine

theorem step_of_not_running {s : State} (h : ¬ Running s) : step s = .next s := by
  cases hs : s.status with
  | running => exact absurd hs h
  | faulted c a w => exact step_of_faulted hs

/-- Settles O8: each clause is one of the ways a step can end, the fetch decided by where `PC` points. -/
theorem stepRunsDecodedInstruction : Obligations.StepRunsDecodedInstruction := by
  intro s
  refine ⟨step_of_not_running, fun hs hpc => ?_, fun hs hpc w i hw hd => ?_, fun hs hpc w e hw hd => ?_⟩
  · have hf : s.fetch = none := s.fetch_eq_none_iff.2 (by omega)
    exact ⟨_, _, step_of_fetch_none hs hf, rfl, rfl⟩
  · have hf : s.fetch = some w := hw ▸ State.fetch_of_lt (by omega)
    exact step_of_decode hs hf hd
  · have hf : s.fetch = some w := hw ▸ State.fetch_of_lt (by omega)
    exact ⟨_, step_of_error hs hf hd, rfl, rfl⟩

end Sys2Proof
end

section
/-! The frames of the operations on `PC`, the stack and `STATUS`, and the control-flow instructions (40_control_flow.md
R80 to R86). -/

namespace Sys2Proof

open Machine

/-! ## Frames: a write of a named part keeps the frame -/

theorem SameBut.refl (l : List Part) (s : State) : SameBut l s s := by
  constructor <;> intros <;> rfl

theorem SameBut.setPc {l : List Part} {s t : State} (h : SameBut l s t) (hl : .pc ∈ l) (w : Word) :
    SameBut l s (t.setPc w) :=
  { h with pc := absurd hl }

theorem SameBut.setStack {l : List Part} {s t : State} (h : SameBut l s t) (hl : .stack ∈ l) (ws : List Word) :
    SameBut l s (t.setStack ws) :=
  { h with stack := absurd hl }

theorem SameBut.setStatus {l : List Part} {s t : State} (h : SameBut l s t) (hl : .status ∈ l) (st : Status) :
    SameBut l s (t.setStatus st) :=
  { h with status := absurd hl }

theorem SameBut.skipIf {l : List Part} {s t : State} (h : SameBut l s t) (hl : .pc ∈ l) (c : Bool) :
    SameBut l s (t.skipIf c) := by
  cases c with
  | false => exact h
  | true => exact h.setPc hl (t.pc + 2)

/-! ## RET, JP and CALL (R81 to R83) -/

@[simp] theorem zextAddr_toNat (nnn : Addr) : (zextAddr nnn).toNat = nnn.toNat :=
  BitVec.toNat_setWidth_of_le (by decide)

theorem exec_jpAddr (nnn : Addr) (s : State) : exec (.jpAddr nnn) s = .next (s.setPc (zextAddr nnn)) := rfl

theorem exec_callAddr (nnn : Addr) (s : State) :
    exec (.callAddr nnn) s = .next ((s.setStack (s.pc :: s.stack)).setPc (zextAddr nnn)) := rfl

/-- Settles O15: the stack is empty or has a top, and the execute stage reports `PC - 2`, the address of the RET. -/
theorem retPopsOrFaults : Obligations.RetPopsOrFaults := by
  intro s
  constructor
  · intro a rest hs
    exact ⟨_, exec_ret_cons hs, rfl, rfl, ((SameBut.refl _ s).setStack (by decide) rest).setPc (by decide) a⟩
  · intro hs
    refine ⟨_, exec_ret_empty hs, fun a ha => ?_, (SameBut.refl _ s).setStatus (by decide) _⟩
    rw [State.setStatus_status, ha, BitVec.add_sub_cancel]

/-- Settles O16: the zero extension of `nnn` is `nnn` as a number. -/
theorem jumpSetsPc : Obligations.JumpSetsPc := fun nnn s =>
  ⟨_, exec_jpAddr nnn s, zextAddr_toNat nnn, (SameBut.refl _ s).setPc (by decide) _⟩

/-- Settles O17: in the execute stage `s.pc` is `npc`, the value pushed; no depth is tested. -/
theorem callPushesReturnAddress : Obligations.CallPushesReturnAddress := fun nnn s =>
  ⟨_, exec_callAddr nnn s, rfl, zextAddr_toNat nnn,
    ((SameBut.refl _ s).setStack (by decide) _).setPc (by decide) _⟩

/-! ## The skips (R84 to R86) -/

theorem exec_seVxKk (x : Reg) (kk : Byte) (s : State) :
    exec (.seVxKk x kk) s = .next (s.skipIf (s.V x == kk)) := rfl

theorem exec_sneVxKk (x : Reg) (kk : Byte) (s : State) :
    exec (.sneVxKk x kk) s = .next (s.skipIf (s.V x != kk)) := rfl

theorem exec_seVxVy (x y : Reg) (s : State) : exec (.seVxVy x y) s = .next (s.skipIf (s.V x == s.V y)) := rfl

/-- An instruction that skips on a test of `P` adds 2 to `PC` exactly when `P` holds, and writes nothing else. -/
theorem exec_skip {i : Instr} {s : State} {c : Bool} {P : Prop} [Decidable P]
    (he : exec i s = .next (s.skipIf c)) (hc : c = true ↔ P) :
    ∃ t, exec i s = .next t ∧ t.pc = (if P then s.pc + 2 else s.pc) ∧ SameBut [.pc] s t := by
  refine ⟨_, he, ?_, (SameBut.refl _ s).skipIf (by decide) c⟩
  simp only [State.skipIf_pc, hc]

/-- Settles O18: each skip is `skipIf` of a Boolean comparison that decides its condition. -/
theorem skipsCompareRegisters : Obligations.SkipsCompareRegisters := fun s =>
  ⟨fun x kk => exec_skip (exec_seVxKk x kk s) beq_iff_eq,
    fun x kk => exec_skip (exec_sneVxKk x kk s) bne_iff_ne,
    fun x y => exec_skip (exec_seVxVy x y s) beq_iff_eq⟩

end Sys2Proof
end

section
/-! The frame of a register write, and the register load, arithmetic and logic instructions (41_arith_logic.md R91 to
R98, R100). -/

namespace Sys2Proof

open Machine

/-! ## A register write: the written register, the other registers, the frame -/

theorem SameBut.setV {l : List Part} {s t : State} (h : SameBut l s t) (hl : .regs ∈ l) (x : Reg) (b : Byte) :
    SameBut l s (t.setV x b) :=
  { h with regs := absurd hl }

theorem setV_V_same (s : State) (x : Reg) (b : Byte) : (s.setV x b).V x = b := by
  rw [State.setV_V, if_pos rfl]

theorem setV_writes_only (s : State) (x : Reg) (b : Byte) :
    (∀ j, j ≠ x → (s.setV x b).V j = s.V j) ∧ SameBut [.regs] s (s.setV x b) :=
  ⟨fun j hj => by rw [State.setV_V, if_neg hj], (SameBut.refl _ s).setV (by decide) x b⟩

/-! ## LD and ADD of an immediate, LD of a register (R91 to R93) -/

theorem exec_ldVxKk (x : Reg) (kk : Byte) (s : State) : exec (.ldVxKk x kk) s = .next (s.setV x kk) := rfl

theorem exec_addVxKk (x : Reg) (kk : Byte) (s : State) :
    exec (.addVxKk x kk) s = .next (s.setV x (BitVec.ofNat 8 ((s.V x).toNat + kk.toNat))) := rfl

theorem exec_ldVxVy (x y : Reg) (s : State) : exec (.ldVxVy x y) s = .next (s.setV x (s.V y)) := rfl

/-- Settles O21: each of the three is one register write. -/
theorem loadsAndAddImmediate : Obligations.LoadsAndAddImmediate := by
  intro s x
  refine ⟨fun kk => ?_, fun kk => ?_, fun y => ?_⟩
  · exact ⟨_, exec_ldVxKk x kk s, setV_V_same s x kk, setV_writes_only s x kk⟩
  · refine ⟨_, exec_addVxKk x kk s, ?_, setV_writes_only s x _⟩
    rw [setV_V_same, BitVec.toNat_ofNat]
  · exact ⟨_, exec_ldVxVy x y s, setV_V_same s x _, setV_writes_only s x _⟩

/-! ## OR, AND, XOR (R94 to R96) -/

theorem exec_orVxVy (x y : Reg) (s : State) : exec (.orVxVy x y) s = .next (s.setV x (s.V x ||| s.V y)) := rfl

theorem exec_andVxVy (x y : Reg) (s : State) : exec (.andVxVy x y) s = .next (s.setV x (s.V x &&& s.V y)) := rfl

theorem exec_xorVxVy (x y : Reg) (s : State) : exec (.xorVxVy x y) s = .next (s.setV x (s.V x ^^^ s.V y)) := rfl

/-- Settles O22: each of the three is one register write, of a value known bit by bit. -/
theorem bitwiseActsOnEachBit : Obligations.BitwiseActsOnEachBit := by
  intro s x y
  refine ⟨⟨_, exec_orVxVy x y s, fun k _ => ?_, setV_writes_only s x _⟩,
    ⟨_, exec_andVxVy x y s, fun k _ => ?_, setV_writes_only s x _⟩,
    ⟨_, exec_xorVxVy x y s, fun k _ => ?_, setV_writes_only s x _⟩⟩
  · rw [setV_V_same, BitVec.getLsbD_or]
  · rw [setV_V_same, BitVec.getLsbD_and]
  · rw [setV_V_same, BitVec.getLsbD_xor]

/-! ## ADD, SUB, SUBN: the result, then the flag (R97, R98, R100) -/

theorem flagByte_decide (P : Prop) [Decidable P] : flagByte (decide P) = if P then 1 else 0 := by
  simp only [flagByte, decide_eq_true_eq]

/-- The difference modulo 256, by whether there is a borrow. -/
theorem toNat_sub_eq_ite (a b : Byte) :
    (a - b).toNat = if a.toNat ≥ b.toNat then a.toNat - b.toNat else a.toNat + 256 - b.toNat := by
  have ha := a.isLt
  have hb := b.isLt
  rw [BitVec.toNat_sub]
  split <;> omega

theorem exec_addVxVy (x y : Reg) (s : State) :
    exec (.addVxVy x y) s = .next
      (s.writeResultThenFlag x (BitVec.ofNat 8 ((s.V x).toNat + (s.V y).toNat)) (carryFlag (s.V x) (s.V y))) := rfl

theorem exec_subVxVy (x y : Reg) (s : State) :
    exec (.subVxVy x y) s = .next
      (s.writeResultThenFlag x (s.V x - s.V y) (notBorrowFlag (s.V x) (s.V y))) := rfl

theorem exec_subnVxVy (x y : Reg) (s : State) :
    exec (.subnVxVy x y) s = .next
      (s.writeResultThenFlag x (s.V y - s.V x) (notBorrowFlag (s.V y) (s.V x))) := rfl

/-- An instruction that writes a result and then a flag: the flag always stands, the result unless `x` is 15. -/
theorem exec_result_then_flag {i : Instr} {s : State} {x : Reg} {r f g : Byte} {n : Nat}
    (he : exec i s = .next (s.writeResultThenFlag x r f)) (hr : r.toNat = n) (hf : f = g) :
    ∃ t, exec i s = .next t ∧ (x ≠ VF → (t.V x).toNat = n) ∧ t.V VF = g ∧
      (∀ j, j ≠ x → j ≠ VF → t.V j = s.V j) ∧ SameBut [.regs] s t := by
  refine ⟨_, he, fun hx => ?_, ?_, fun j hjx hjf => ?_,
    ((SameBut.refl _ s).setV (by decide) x r).setV (by decide) VF f⟩
  · rw [State.writeResultThenFlag_V, if_neg hx, if_pos rfl, hr]
  · rw [State.writeResultThenFlag_V, if_pos rfl, hf]
  · rw [State.writeResultThenFlag_V, if_neg hjf, if_neg hjx]

/-- Settles O23: the result is the sum modulo 256, the flag whether the sum exceeds 255. -/
theorem addWritesSumThenCarry : Obligations.AddWritesSumThenCarry := fun s x y =>
  exec_result_then_flag (exec_addVxVy x y s) (BitVec.toNat_ofNat _ _) (flagByte_decide _)

/-- Settles O24: SUBN is SUB with the operands exchanged. -/
theorem subtractWritesDifferenceThenNotBorrow : Obligations.SubtractWritesDifferenceThenNotBorrow := fun s x y =>
  ⟨exec_result_then_flag (exec_subVxVy x y s) (toNat_sub_eq_ite _ _) (flagByte_decide _),
    exec_result_then_flag (exec_subnVxVy x y s) (toNat_sub_eq_ite _ _) (flagByte_decide _)⟩

end Sys2Proof
end

section
/-! The frames of a write of `I`, of the register file and of memory, the bounds of a data access, and the index, BCD and
block-transfer instructions (42_index_memory.md R111, R113 to R115). -/

namespace Sys2Proof

open Machine

/-! ## Frames: a write of a named part keeps the frame -/

theorem SameBut.setI {l : List Part} {s t : State} (h : SameBut l s t) (hl : .i ∈ l) (w : Word) :
    SameBut l s (t.setI w) :=
  { h with i := absurd hl }

theorem SameBut.setRegs {l : List Part} {s t : State} (h : SameBut l s t) (hl : .regs ∈ l) (r : Vector Byte 16) :
    SameBut l s (t.setRegs r) :=
  { h with regs := absurd hl }

theorem SameBut.storeBytes {l : List Part} {s t : State} (h : SameBut l s t) (hl : .bytes ∈ l) (a : Nat)
    (bs : List Byte) : SameBut l s (t.storeBytes a bs) :=
  { h with bytes := absurd hl }

/-! ## The bounds of a data access (20_memory.md R49) -/

theorem dataOutOfBounds_succ (s : State) (n : Nat) : s.dataOutOfBounds (n + 1) ↔ 4096 ≤ s.i.toNat + n :=
  and_iff_right (Nat.le_add_left 1 n)

/-- The fault of a data access changes `STATUS` alone; in the execute stage it reports `PC - 2`, the address of the
instruction. -/
theorem takesDataFault_of_dataOutOfBounds {i : Instr} {s : State} (h : s.dataOutOfBounds i.dataCount) :
    TakesDataFault i s := by
  refine ⟨_, _, exec_out_of_bounds h, lowestOutOfBounds_toNat s.i, fun a ha => ?_,
    (SameBut.refl _ s).setStatus (by decide) _⟩
  rw [State.setStatus_status, ha, BitVec.add_sub_cancel]

/-! ## Bytes stored from `a`: those in the block, those outside it (R47, R50) -/

theorem storeBytes_byteAt_inside (s : State) (a : Nat) (bs : List Byte) {k : Nat} (hk : k < bs.length) :
    (s.storeBytes a bs).byteAt (a + k) = bs[k] := by
  rw [State.storeBytes_byteAt, dif_pos (by omega)]
  simp only [Nat.add_sub_cancel_left]

theorem storeBytes_byteAt_outside (s : State) (a : Nat) (bs : List Byte) {d : Nat}
    (hd : d < a ∨ a + bs.length ≤ d) : (s.storeBytes a bs).byteAt d = s.byteAt d := by
  rw [State.storeBytes_byteAt, dif_neg (by omega)]

/-! ## LD I,addr (R111) -/

theorem exec_ldIAddr (nnn : Addr) (s : State) : exec (.ldIAddr nnn) s = .next (s.setI (zextAddr nnn)) := rfl

/-- Settles O28: the zero extension of `nnn` is `nnn` as a number. -/
theorem indexLoadSetsIndex : Obligations.IndexLoadSetsIndex := fun nnn s =>
  ⟨_, exec_ldIAddr nnn s, zextAddr_toNat nnn, (SameBut.refl _ s).setI (by decide) _⟩

/-! ## LD B,Vx (R113) -/

/-- A number no larger than a byte's value fits a byte: a decimal digit of a byte is stored whole. -/
theorem toNat_ofNat_of_le_byte (b : Byte) {n : Nat} (h : n ≤ b.toNat) : (BitVec.ofNat 8 n).toNat = n := by
  rw [BitVec.toNat_ofNat, Nat.mod_eq_of_lt (h.trans_lt b.isLt)]

theorem exec_ldBVx_of_in {x : Reg} {s : State} (h : s.i.toNat + 2 < 4096) :
    exec (.ldBVx x) s = .next (s.storeBytes s.i.toNat (bcdDigits (s.V x))) :=
  withDataAccess_of_in (mt (dataOutOfBounds_succ s 2).1 h.not_ge)

theorem storeBytes_bcdDigits_byteAt (s : State) (a : Nat) (b : Byte) :
    ((s.storeBytes a (bcdDigits b)).byteAt a).toNat = b.toNat / 100 ∧
    ((s.storeBytes a (bcdDigits b)).byteAt (a + 1)).toNat = b.toNat / 10 % 10 ∧
    ((s.storeBytes a (bcdDigits b)).byteAt (a + 2)).toNat = b.toNat % 10 := by
  have digit (k : Nat) (hk : k < 3) : (s.storeBytes a (bcdDigits b)).byteAt (a + k) = (bcdDigits b)[k]'hk :=
    storeBytes_byteAt_inside s a (bcdDigits b) hk
  refine ⟨(congrArg BitVec.toNat (digit 0 (by decide))).trans ?_,
    (congrArg BitVec.toNat (digit 1 (by decide))).trans ?_,
    (congrArg BitVec.toNat (digit 2 (by decide))).trans ?_⟩
  · exact toNat_ofNat_of_le_byte b (Nat.div_le_self _ _)
  · exact toNat_ofNat_of_le_byte b ((Nat.mod_le _ _).trans (Nat.div_le_self _ _))
  · exact toNat_ofNat_of_le_byte b (Nat.mod_le _ _)

/-- Settles O30: the digits are the three bytes stored from `I`; out of bounds, the data fault. -/
theorem bcdStoreWritesThreeDigits : Obligations.BcdStoreWritesThreeDigits := by
  intro s x
  obtain ⟨hundreds, tens, ones⟩ := storeBytes_bcdDigits_byteAt s s.i.toNat (s.V x)
  exact ⟨fun h => ⟨_, exec_ldBVx_of_in h, hundreds, tens, ones, fun _ ha => storeBytes_byteAt_outside s _ _ ha,
    (SameBut.refl _ s).storeBytes (by decide) _ _⟩,
    fun h => takesDataFault_of_dataOutOfBounds ((dataOutOfBounds_succ s 2).2 h)⟩

/-! ## LD [I],Vx and LD Vx,[I] (R114, R115) -/

theorem exec_ldMemVx_of_in {x : Reg} {s : State} (h : s.i.toNat + x.val < 4096) :
    exec (.ldMemVx x) s = .next (s.storeBytes s.i.toNat (s.regsUpTo x)) :=
  withDataAccess_of_in (mt (dataOutOfBounds_succ s x.val).1 h.not_ge)

theorem exec_ldVxMem_of_in {x : Reg} {s : State} (h : s.i.toNat + x.val < 4096) :
    exec (.ldVxMem x) s = .next (s.setRegs (s.regsFrom x s.i.toNat)) :=
  withDataAccess_of_in (mt (dataOutOfBounds_succ s x.val).1 h.not_ge)

/-- The block stored by Fx55 is `V[0]` to `V[x]`, read back in place. -/
theorem storeBytes_regsUpTo_byteAt (s : State) (a : Nat) {x j : Reg} (hj : j ≤ x) :
    (s.storeBytes a (s.regsUpTo x)).byteAt (a + j.val) = s.V j := by
  have hk : j.val < (s.regsUpTo x).length := by
    rw [State.length_regsUpTo]
    exact Nat.lt_succ_of_le hj
  rw [storeBytes_byteAt_inside s a _ hk, State.getElem_regsUpTo]

/-- A register after Fx65: the byte in its place up to `x`, its old value above. -/
theorem setRegs_regsFrom_V (s : State) (x : Reg) (a : Nat) (j : Reg) :
    (s.setRegs (s.regsFrom x a)).V j = if j ≤ x then s.byteAt (a + j.val) else s.V j := by
  rw [State.setRegs_V]
  exact State.getElem_regsFrom s x a j.val j.isLt

/-- Settles O31: the bytes stored from `I` are the registers; out of bounds, the data fault. -/
theorem storeRegistersWritesBlock : Obligations.StoreRegistersWritesBlock := by
  intro s x
  refine ⟨fun h => ⟨_, exec_ldMemVx_of_in h, fun j hj => storeBytes_regsUpTo_byteAt s _ hj, fun a ha => ?_,
    (SameBut.refl _ s).storeBytes (by decide) _ _⟩,
    fun h => takesDataFault_of_dataOutOfBounds ((dataOutOfBounds_succ s x.val).2 h)⟩
  apply storeBytes_byteAt_outside
  rw [State.length_regsUpTo]
  omega

/-- Settles O32: a register up to `x` takes its byte, one above `x` stays; out of bounds, the data fault. -/
theorem loadRegistersReadsBlock : Obligations.LoadRegistersReadsBlock := by
  intro s x
  refine ⟨fun h => ⟨_, exec_ldVxMem_of_in h, fun j hj => ?_, fun j hj => ?_,
    (SameBut.refl _ s).setRegs (by decide) _⟩,
    fun h => takesDataFault_of_dataOutOfBounds ((dataOutOfBounds_succ s x.val).2 h)⟩
  · rw [setRegs_regsFrom_V, if_pos hj]
  · rw [setRegs_regsFrom_V, if_neg hj.not_ge]

end Sys2Proof
end

section
/-! The frame of a framebuffer write, the canvas a draw leaves in the spec's own coordinates, and the display
instructions (43_display.md R121 to R124). -/

namespace Sys2Proof

open Machine

/-! ## Frames: a write of the framebuffer, and the end of a draw -/

theorem SameBut.setFb {l : List Part} {s t : State} (h : SameBut l s t) (hl : .screen ∈ l) (f : Screen) :
    SameBut l s (t.setFb f) :=
  { h with screen := absurd hl }

theorem withCanvas_writes_only (s : State) (k : Canvas) :
    (∀ j, j ≠ VF → (s.withCanvas k).V j = s.V j) ∧ SameBut [.regs, .screen] s (s.withCanvas k) :=
  ⟨fun j hj => by rw [State.withCanvas_V, if_neg hj],
    ((SameBut.refl _ s).setFb (by decide) k.fb).setV (by decide) VF (flagByte k.flag)⟩

theorem withCanvas_VF (s : State) (k : Canvas) : (s.withCanvas k).V VF = flagByte k.flag := by
  rw [State.withCanvas_V, if_pos rfl]

theorem flagByte_eq_zero_or_one (b : Bool) : flagByte b = 0 ∨ flagByte b = 1 := by
  cases b
  · exact .inl rfl
  · exact .inr rfl

theorem flagByte_eq_one_iff {b : Bool} : flagByte b = 1 ↔ b = true := by
  cases b <;> decide

/-! ## CLS (R121) -/

theorem exec_cls (s : State) : exec .cls s = .next (s.setFb Screen.off) := rfl

/-- Settles O35: CLS is one write of the framebuffer, of the screen with every cell off. -/
theorem clearTurnsEveryCellOff : Obligations.ClearTurnsEveryCellOff := fun s =>
  ⟨_, exec_cls s, Screen.cell_off, (SameBut.refl _ s).setFb (by decide) _⟩

/-! ## Toroidal coordinates as numbers (R120, R122) -/

theorem eq_spriteRow_iff {row : Fin 32} {vy : Byte} {r : Nat} :
    row = spriteRow vy r ↔ row.val = (vy.toNat + r) % 32 := Fin.ext_iff

theorem eq_spriteCol_iff {col : Fin 64} {vx : Byte} {c : Nat} :
    col = spriteCol vx c ↔ col.val = (vx.toNat + c) % 64 := Fin.ext_iff

/-! ## The sprite of `n` bytes at `a`: target cells, other cells, the flag (R122 to R124) -/

/-- Each target cell combines its old value with its sprite bit; no two targets meet, as a sprite has at most 32 rows
(R126). -/
theorem drawSprite_target (s : State) (vx vy : Byte) (a : Nat) {n r c : Nat} (hn : n ≤ 32) (hr : r < n) (hc : c < 8)
    {row : Fin 32} {col : Fin 64} (hrow : row.val = (vy.toNat + r) % 32) (hcol : col.val = (vx.toNat + c) % 64) :
    Screen.cell (s.drawSprite vx vy (s.loadBytes a n)).fb row col =
      cellAfter s.cfg.drawMode (Screen.cell s.fb row col) (spriteBit (s.byteAt (a + r)) c) := by
  have target := drawRows_target s.cfg.drawMode vx vy 0 (s.loadBytes a n) ⟨s.fb, false⟩ (by simpa using hn)
    (by simpa using hr) hc
  rwa [Nat.zero_add, ← eq_spriteRow_iff.2 hrow, ← eq_spriteCol_iff.2 hcol, State.getElem_loadBytes] at target

theorem drawSprite_other (s : State) (vx vy : Byte) (a n : Nat) {row : Fin 32} {col : Fin 64}
    (h : ∀ r < n, ∀ c < 8, ¬ (row.val = (vy.toNat + r) % 32 ∧ col.val = (vx.toNat + c) % 64)) :
    Screen.cell (s.drawSprite vx vy (s.loadBytes a n)).fb row col = Screen.cell s.fb row col := by
  apply drawRows_other
  intro r hr c hc
  rw [State.length_loadBytes] at hr
  rw [Nat.zero_add, eq_spriteRow_iff, eq_spriteCol_iff]
  exact h r hr c hc

/-- The flag is set exactly when a target cell, as it was before the draw, collides with its sprite bit. -/
theorem drawSprite_flag (s : State) (vx vy : Byte) (a : Nat) {n : Nat} (hn : n ≤ 32) :
    (s.drawSprite vx vy (s.loadBytes a n)).flag = true ↔
      ∃ r < n, ∃ c < 8, ∃ (row : Fin 32) (col : Fin 64),
        row.val = (vy.toNat + r) % 32 ∧ col.val = (vx.toNat + c) % 64 ∧
        collides s.cfg.drawMode (Screen.cell s.fb row col) (spriteBit (s.byteAt (a + r)) c) = true := by
  rw [State.drawSprite, drawRows_flag _ _ _ _ _ _ (by simpa using hn)]
  simp only [← eq_spriteRow_iff, ← eq_spriteCol_iff, State.length_loadBytes, State.getElem_loadBytes, Nat.zero_add,
    Bool.false_eq_true, false_or, exists_prop, exists_eq_left, exists_and_left]

/-- In `overwrite` mode no pixel collides (R123). -/
theorem drawSprite_flag_of_overwrite {s : State} (hm : s.cfg.drawMode = .overwrite) (vx vy : Byte) (a : Nat) {n : Nat}
    (hn : n ≤ 32) : (s.drawSprite vx vy (s.loadBytes a n)).flag = false := by
  rw [Bool.eq_false_iff, Ne, drawSprite_flag s vx vy a hn, hm]
  rintro ⟨_, _, _, _, _, _, _, _, hcollides⟩
  exact Bool.false_ne_true hcollides

theorem collides_xor {old bit : Bool} : collides .xor old bit = true ↔ old = true ∧ bit = true :=
  Bool.and_eq_true_iff

/-! ## DRW (R122 to R124) -/

/-- A draw of `n` rows accesses the bytes `I` to `I + n - 1`. -/
theorem dataOutOfBounds_iff (s : State) (n : Nat) :
    s.dataOutOfBounds n ↔ 1 ≤ n ∧ 4096 ≤ s.i.toNat + n - 1 :=
  and_congr_right fun hn => by rw [Nat.add_sub_assoc hn]

theorem exec_drwVxVyN_of_in {x y : Reg} {n : Fin 16} {s : State}
    (h : ¬ (1 ≤ n.val ∧ 4096 ≤ s.i.toNat + n.val - 1)) :
    exec (.drwVxVyN x y n) s =
      .next (s.withCanvas (s.drawSprite (s.V x) (s.V y) (s.loadBytes s.i.toNat n.val))) :=
  withDataAccess_of_in (mt (dataOutOfBounds_iff s n.val).1 h)

theorem takesDataFault_drwVxVyN {x y : Reg} {n : Fin 16} {s : State}
    (h : 1 ≤ n.val ∧ 4096 ≤ s.i.toNat + n.val - 1) : TakesDataFault (.drwVxVyN x y n) s :=
  takesDataFault_of_dataOutOfBounds ((dataOutOfBounds_iff s n.val).2 h)

/-- Settles O36: in `overwrite` mode a target cell takes its sprite bit and no pixel collides. -/
theorem drawOverwritesTargetCells : Obligations.DrawOverwritesTargetCells := by
  intro s x y n hm
  have hn : n.val ≤ 32 := n.isLt.le.trans (by decide)
  refine ⟨fun h => ⟨_, exec_drwVxVyN_of_in h, fun r hr c hc row col hrow hcol => ?_,
    fun row col hother => drawSprite_other s _ _ _ _ hother, ?_, withCanvas_writes_only s _⟩, takesDataFault_drwVxVyN⟩
  · rw [State.withCanvas_fb, drawSprite_target s _ _ _ hn hr hc hrow hcol, hm]
    rfl
  · rw [withCanvas_VF, drawSprite_flag_of_overwrite hm _ _ _ hn]
    rfl

/-- Settles O37: in `xor` mode a target cell is exclusive-ored with its sprite bit, and a collision is an on cell with
sprite bit 1. -/
theorem drawXorsTargetCells : Obligations.DrawXorsTargetCells := by
  intro s x y n hm
  have hn : n.val ≤ 32 := n.isLt.le.trans (by decide)
  refine ⟨fun h => ⟨_, exec_drwVxVyN_of_in h, fun r hr c hc row col hrow hcol => ?_,
    fun row col hother => drawSprite_other s _ _ _ _ hother, ?_, ?_, withCanvas_writes_only s _⟩,
    takesDataFault_drwVxVyN⟩
  · rw [State.withCanvas_fb, drawSprite_target s _ _ _ hn hr hc hrow hcol, hm]
    rfl
  · rw [withCanvas_VF]
    exact flagByte_eq_zero_or_one _
  · rw [withCanvas_VF, flagByte_eq_one_iff, drawSprite_flag s _ _ _ hn, hm]
    simp only [collides_xor, spriteBit]

end Sys2Proof
end

section
/-! The frames of a write of `DT` and of `ST`, and the moves between a general register and a timer (44_timers.md R130
to R132). -/

namespace Sys2Proof

open Machine

/-! ## Frames: a write of a timer keeps the frame that names it -/

theorem SameBut.setDt {l : List Part} {s t : State} (h : SameBut l s t) (hl : .dt ∈ l) (b : Byte) :
    SameBut l s (t.setDt b) :=
  { h with dt := absurd hl }

theorem SameBut.setSt {l : List Part} {s t : State} (h : SameBut l s t) (hl : .st ∈ l) (b : Byte) :
    SameBut l s (t.setSt b) :=
  { h with st := absurd hl }

/-! ## LD Vx,DT; LD DT,Vx; LD ST,Vx (R130 to R132) -/

theorem exec_ldVxDt (x : Reg) (s : State) : exec (.ldVxDt x) s = .next (s.setV x s.dt) := rfl

theorem exec_ldDtVx (x : Reg) (s : State) : exec (.ldDtVx x) s = .next (s.setDt (s.V x)) := rfl

theorem exec_ldStVx (x : Reg) (s : State) : exec (.ldStVx x) s = .next (s.setSt (s.V x)) := rfl

/-- Settles O39: each move is one write, of a register, of `DT` or of `ST`. -/
theorem timerMoves : Obligations.TimerMoves := by
  intro s x
  refine ⟨?_, ?_, ?_⟩
  · exact ⟨_, exec_ldVxDt x s, setV_V_same s x s.dt, setV_writes_only s x s.dt⟩
  · exact ⟨_, exec_ldDtVx x s, State.setDt_dt s (s.V x), (SameBut.refl _ s).setDt (by decide) (s.V x)⟩
  · exact ⟨_, exec_ldStVx x s, State.setSt_st s (s.V x), (SameBut.refl _ s).setSt (by decide) (s.V x)⟩

end Sys2Proof
end

section
/-! The fault of an unrecognised word (60_exceptions.md R142), and the tick (44_timers.md R155, R156). -/

namespace Sys2Proof

open Machine

/-! ## A word that selects no row (R142) -/

theorem decode_error_of_not_wordWellFormed {w : Word} (h : wordWellFormed w = false) : ∃ e, decode w = .error e := by
  cases hd : decode w with
  | error e => exact ⟨e, rfl⟩
  | ok i =>
    have hwf : wordWellFormed w = true := (decode_ok_iff_wordWellFormed w).1 ⟨i, hd⟩
    exact absurd hwf (Bool.eq_false_iff.1 h)

theorem SameBut.advance {l : List Part} {s t : State} (h : SameBut l s t) (hl : .pc ∈ l) : SameBut l s t.advance :=
  h.setPc hl (t.pc + 2)

/-- Settles O10: the decoder rejects a word that selects no row, and the step then writes `PC` and `STATUS` only. -/
theorem unrecognisedWordFaults : Obligations.UnrecognisedWordFaults := by
  intro s w hs hf hw
  obtain ⟨e, he⟩ := decode_error_of_not_wordWellFormed hw
  exact ⟨_, step_of_error hs hf he, rfl, rfl, ((SameBut.refl _ s).advance (by decide)).setStatus (by decide) _⟩

/-! ## The tick unit (R155, R156) -/

/-- A byte counted down, as a number: it stops at 0 and does not wrap. -/
theorem countDown_toNat (b : Byte) : (countDown b).toNat = if b.toNat ≠ 0 then b.toNat - 1 else 0 := by
  unfold countDown
  split
  case isTrue h => subst h; rfl
  case isFalse h =>
    have hb : b.toNat ≠ 0 := fun h0 => h (BitVec.eq_of_toNat_eq h0)
    have hle : (1 : Byte) ≤ b := Nat.one_le_iff_ne_zero.2 hb
    rw [if_pos hb, BitVec.toNat_sub_of_le hle]
    rfl

/-- Settles O40: a tick of a running machine is one write of each timer, of its value counted down. -/
theorem tickCountsDown : Obligations.TickCountsDown := by
  intro s hs
  rw [State.tick_of_running hs]
  exact ⟨countDown_toNat s.dt, countDown_toNat s.st,
    ((SameBut.refl _ s).setDt (by decide) _).setSt (by decide) _⟩

end Sys2Proof
end

section
/-! The decoder and the encoder are inverse (30_encoding.md R65, R72), no word selects two rows (R66), and the
unrecognised words family by family (R67). -/

namespace Sys2Proof

/-! ## Decoding the encoding (R65, R72) -/

/-- A word of format `XY` in family 8 is decided by its sub-opcode. -/
theorem classify_packXY_alu (x y : Reg) (n : BitVec 4) : classify (packXY 8#4 x y n) = classifyAlu x y n.toNat := by
  simp [classify]

/-- A word of format `XF` is decided by its low byte. -/
theorem classify_packXF (x : Reg) (kk : Byte) : classify (packXF x kk) = classifyF x kk.toNat := by
  simp [classify]

theorem classify_encode (i : Instr) : classify (encode i) = some i := by
  cases i with
  | cls | ret => rfl
  | ldVxVy x y | orVxVy x y | andVxVy x y | xorVxVy x y | addVxVy x y | subVxVy x y | shrVxVy x y | subnVxVy x y
  | shlVxVy x y => exact classify_packXY_alu x y _
  | ldVxDt x | ldDtVx x | ldStVx x | addIVx x | ldBVx x | ldMemVx x | ldVxMem x => exact classify_packXF x _
  | _ => simp [encode, classify]

theorem decode_encode (i : Instr) : decode (encode i) = .ok i :=
  decode_eq_ok_iff.2 (classify_encode i)

theorem decodeBytes_bytesOfWord {w : Word} {i : Instr} (h : decode w = .ok i) (rest : List Byte) :
    decodeBytes (bytesOfWord w ++ rest) = .ok (i, rest) := by
  simp [bytesOfWord, decodeBytes, Machine.wordOfBytes_bytesOfWord, h]

/-- Settles O1: each format's fields read back the operands, and the two bytes of a word give back the word. -/
theorem decodeOfEncodeIsSame : Obligations.DecodeOfEncodeIsSame := fun i rest =>
  ⟨decode_encode i, decodeBytes_bytesOfWord (decode_encode i) rest⟩

/-! ## Encoding the decoded (R62) -/

theorem encode_of_decode {w : Word} {i : Instr} (h : decode w = .ok i) : encode i = w :=
  encode_of_classify (decode_eq_ok_iff.1 h)

/-- Settles O2: each format packs back every field of the word it was read from. -/
theorem encodeOfDecodeIsSame : Obligations.EncodeOfDecodeIsSame := fun _ _ => encode_of_decode

/-! ## The rows are disjoint (R66) -/

/-- Settles O5: the instruction a word decodes to bears the mnemonic of every row the word selects, and the mnemonics
of the table are distinct. -/
theorem opcodeRowsAreDisjoint : Obligations.OpcodeRowsAreDisjoint := by
  intro w r hr q hq hrw hqw
  have hmn : some r.mnemonic = some q.mnemonic :=
    (mnemonic_classify_of_selects hr (beq_iff_eq.1 hrw)).symm.trans (mnemonic_classify_of_selects hq (beq_iff_eq.1 hqw))
  exact List.inj_on_of_nodup_map opcodeTable_mnemonics_nodup hr hq (Option.some.inj hmn)

/-! ## The unrecognised words (R67) -/

theorem classifyAlu_eq_none_iff {x y : Reg} {n : Nat} (hn : n < 16) :
    classifyAlu x y n = none ↔ n ∈ [0x8, 0x9, 0xA, 0xB, 0xC, 0xD, 0xF] := by
  unfold classifyAlu
  split
  case h_10 => simp_all; omega
  all_goals simp

theorem classifyF_eq_none_iff {x : Reg} {kk : Nat} :
    classifyF x kk = none ↔ kk ∉ [0x07, 0x15, 0x18, 0x1E, 0x33, 0x55, 0x65] := by
  unfold classifyF
  split
  case h_8 => simp_all
  all_goals simp

theorem fieldN_eq_zero_iff (w : Word) : fieldN w = 0#4 ↔ w.toNat % 16 = 0 := by
  rw [← BitVec.toNat_inj, fieldN_toNat]
  rfl

theorem classify_eq_none_iff (w : Word) : classify w = none ↔
    (w.toNat / 4096 = 0 ∧ w ≠ 0x00E0#16 ∧ w ≠ 0x00EE#16) ∨
    (w.toNat / 4096 = 5 ∧ w.toNat % 16 ≠ 0) ∨
    (w.toNat / 4096 = 8 ∧ w.toNat % 16 ∈ [0x8, 0x9, 0xA, 0xB, 0xC, 0xD, 0xF]) ∨
    w.toNat / 4096 = 9 ∨ w.toNat / 4096 = 0xB ∨ w.toNat / 4096 = 0xE ∨
    (w.toNat / 4096 = 0xF ∧ w.toNat % 256 ∉ [0x07, 0x15, 0x18, 0x1E, 0x33, 0x55, 0x65]) := by
  have hw := w.isLt
  simp only [classify, fieldOp_toNat, fieldN_toNat, fieldKK_toNat]
  split
  case h_1 hop => split_ifs <;> simp_all
  case h_6 hop =>
    simp [hop, fieldN_eq_zero_iff]
  case h_9 hop =>
    rw [classifyAlu_eq_none_iff (Nat.mod_lt _ (by decide))]
    simp [hop]
  case h_13 hop =>
    rw [classifyF_eq_none_iff]
    simp [hop]
  case h_14 =>
    simp_all
    omega
  all_goals
    rename_i hop
    simp [hop]

/-- Settles O6: the classifier answers nothing in exactly those families, and the decoder then names the word. -/
theorem unrecognisedWordsByFamily : Obligations.UnrecognisedWordsByFamily := by
  intro w
  rw [← classify_eq_none_iff, decode]
  cases classify w <;> simp

/-! ## The word of each instruction as a number (R72) -/

theorem packXY_toNat (op : BitVec 4) (x y : Reg) (n : BitVec 4) :
    (packXY op x y n).toNat = op.toNat * 4096 + x.val * 256 + y.val * 16 + n.toNat :=
  packNibbles_toNat ..

theorem packXF_toNat (x : Reg) (kk : Byte) : (packXF x kk).toNat = 0xF000 + x.val * 256 + kk.toNat :=
  packXKK_toNat ..

/-- Settles O3: each clause is the number of the instruction's format; the examples are words written out. -/
theorem encodeFollowsFormats : Obligations.EncodeFollowsFormats := by
  refine ⟨⟨rfl, rfl⟩, fun nnn => ?_, fun x kk => ?_, fun x y => ?_, fun x y n => ?_, fun x => ?_, rfl, rfl, rfl⟩
  · exact ⟨packNNN_toNat .., packNNN_toNat .., packNNN_toNat ..⟩
  · exact ⟨packXKK_toNat .., packXKK_toNat .., packXKK_toNat .., packXKK_toNat .., packXKK_toNat ..⟩
  · exact ⟨packXY_toNat .., packXY_toNat .., packXY_toNat .., packXY_toNat .., packXY_toNat .., packXY_toNat ..,
      packXY_toNat .., packXY_toNat .., packXY_toNat .., packXY_toNat ..⟩
  · exact packXY_toNat ..
  · exact ⟨packXF_toNat .., packXF_toNat .., packXF_toNat .., packXF_toNat .., packXF_toNat .., packXF_toNat ..,
      packXF_toNat ..⟩

/-- Settles O7: nine closed words. -/
theorem sampleWordsDecode : Obligations.SampleWordsDecode := by
  unfold Obligations.SampleWordsDecode
  decide

end Sys2Proof
end

section
/-! What an instruction leaves as it was: the parts it does not write (10_state.md R13, R15, R20 to R24), and the parts
it does not read (R20, R24). -/

namespace Sys2Proof

open Machine

/-! ## Every instruction and every step answers a next state -/

/-- An instruction underflows, runs out of bounds or completes. -/
theorem exec_total (i : Instr) (s : State) : ∃ t, exec i s = .next t := by
  by_cases hb : s.dataOutOfBounds i.dataCount
  · exact ⟨_, exec_out_of_bounds hb⟩
  by_cases hr : i = .ret ∧ s.stack = []
  · obtain ⟨rfl, hs⟩ := hr
    exact ⟨_, exec_ret_empty hs⟩
  · obtain ⟨t, ht, -⟩ := exec_of_completes (i := i) (s := s) ⟨fun hi hs => hr ⟨hi, hs⟩, hb⟩
    exact ⟨t, ht⟩

theorem step_total (s : State) : ∃ t, step s = .next t := by
  cases hs : s.status with
  | faulted c a w => exact ⟨_, step_of_faulted hs⟩
  | running =>
    cases hf : s.fetch with
    | none => exact ⟨_, step_of_fetch_none hs hf⟩
    | some w =>
      cases hd : decode w with
      | error e => exact ⟨_, step_of_error hs hf hd⟩
      | ok i => exact step_of_decode hs hf hd ▸ exec_total i s.advance

/-- Settles O14: a fault is a next state too. -/
theorem everyInstructionAndStepAnswersNext : Obligations.EveryInstructionAndStepAnswersNext :=
  ⟨exec_total, step_total⟩

/-! ## The parts an instruction writes -/

/-- The parts of the state an instruction may write when it completes. `PC` means a write beyond the advance that
precedes the execute stage (30_encoding.md R64). -/
@[simp] def Instr.writesParts : Instr → List Part
  | .cls => [.screen]
  | .ret | .callAddr _ => [.pc, .stack]
  | .jpAddr _ | .seVxKk _ _ | .sneVxKk _ _ | .seVxVy _ _ => [.pc]
  | .ldVxKk _ _ | .addVxKk _ _ | .ldVxVy _ _ | .orVxVy _ _ | .andVxVy _ _ | .xorVxVy _ _ => [.regs]
  | .addVxVy _ _ | .subVxVy _ _ | .shrVxVy _ _ | .subnVxVy _ _ | .shlVxVy _ _ => [.regs]
  | .ldVxDt _ | .ldVxMem _ => [.regs]
  | .ldIAddr _ | .addIVx _ => [.i]
  | .rndVxKk _ _ => [.regs, .draws]
  | .drwVxVyN _ _ _ => [.regs, .screen]
  | .ldDtVx _ => [.dt]
  | .ldStVx _ => [.st]
  | .ldBVx _ | .ldMemVx _ => [.bytes]

theorem SameBut.setDraws {l : List Part} {s t : State} (h : SameBut l s t) (hl : .draws ∈ l) (n : Nat) :
    SameBut l s (t.setDraws n) :=
  { h with draws := absurd hl }

/-- A data access that faults has changed `STATUS` alone, so its frame is that of its whole effect, with `STATUS`. -/
theorem SameBut.of_withDataAccess {l : List Part} {n : Nat} {s whole t : State} (hw : SameBut (.status :: l) s whole)
    (h : withDataAccess n s whole = .next t) : SameBut (.status :: l) s t := by
  rcases withDataAccess_cases h with ⟨-, rfl⟩ | ⟨-, rfl⟩
  · exact (SameBut.refl _ s).setStatus (by simp) _
  · exact hw

/-- An instruction changes the parts it writes, and `STATUS` when it faults. -/
theorem exec_frame {i : Instr} {s t : State} (h : exec i s = .next t) : SameBut (.status :: i.writesParts) s t := by
  have same := SameBut.refl (.status :: i.writesParts) s
  cases i with
  | cls => cases h; exact same.setFb (by simp) _
  | ret =>
    cases hs : s.stack with
    | nil => rw [exec_ret_empty hs] at h; cases h; exact same.setStatus (by simp) _
    | cons a rest => rw [exec_ret_cons hs] at h; cases h; exact (same.setStack (by simp) _).setPc (by simp) _
  | jpAddr nnn => cases h; exact same.setPc (by simp) _
  | callAddr nnn => cases h; exact (same.setStack (by simp) _).setPc (by simp) _
  | seVxKk x _ | sneVxKk x _ | seVxVy x _ => cases h; exact same.skipIf (by simp) _
  | ldVxKk x _ | addVxKk x _ | ldVxVy x _ | orVxVy x _ | andVxVy x _ | xorVxVy x _ | ldVxDt x =>
    cases h; exact same.setV (by simp) x _
  | addVxVy x _ | subVxVy x _ | subnVxVy x _ => cases h; exact (same.setV (by simp) x _).setV (by simp) VF _
  | shrVxVy x _ | shlVxVy x _ => cases h; exact (same.setV (by simp) VF _).setV (by simp) x _
  | ldIAddr nnn => cases h; exact same.setI (by simp) _
  | addIVx x => cases h; exact same.setI (by simp) _
  | rndVxKk x kk => cases h; exact (same.setV (by simp) x _).setDraws (by simp) _
  | ldDtVx x => cases h; exact same.setDt (by simp) _
  | ldStVx x => cases h; exact same.setSt (by simp) _
  | drwVxVyN x y n => exact ((same.setFb (by simp) _).setV (by simp) VF _).of_withDataAccess h
  | ldBVx x | ldMemVx x => exact (same.storeBytes (by simp) _ _).of_withDataAccess h
  | ldVxMem x => exact (same.setRegs (by simp) _).of_withDataAccess h

/-! ## The writers of each part -/

section Writers

variable {i : Instr}

theorem writers_i (h : .i ∈ .status :: i.writesParts) : (∃ nnn, i = .ldIAddr nnn) ∨ ∃ x, i = .addIVx x := by
  cases i <;> simp at h ⊢

theorem writers_dt (h : .dt ∈ .status :: i.writesParts) : ∃ x, i = .ldDtVx x := by
  cases i <;> simp at h ⊢

theorem writers_st (h : .st ∈ .status :: i.writesParts) : ∃ x, i = .ldStVx x := by
  cases i <;> simp at h ⊢

theorem writers_stack (h : .stack ∈ .status :: i.writesParts) : i = .ret ∨ ∃ nnn, i = .callAddr nnn := by
  cases i <;> simp at h ⊢

theorem writers_bytes (h : .bytes ∈ .status :: i.writesParts) : (∃ x, i = .ldBVx x) ∨ ∃ x, i = .ldMemVx x := by
  cases i <;> simp at h ⊢

theorem writers_screen (h : .screen ∈ .status :: i.writesParts) : i = .cls ∨ ∃ x y n, i = .drwVxVyN x y n := by
  cases i <;> simp at h ⊢

theorem writers_draws (h : .draws ∈ .status :: i.writesParts) : ∃ x kk, i = .rndVxKk x kk := by
  cases i <;> simp at h ⊢

theorem key_not_written : .key ∉ .status :: i.writesParts := by
  cases i <;> simp

end Writers

/-- A part the frame can change only if it is listed has changed, so it is listed. -/
theorem mem_of_changed {l : List Part} {p : Part} {P : Prop} (same : p ∉ l → P) (changed : ¬ P) : p ∈ l :=
  not_imp_comm.1 same changed

/-- Settles O46: a part that an instruction has changed is among those it writes, and the list of each part's writers is
the statement's. -/
theorem stateWrittenOnlyByItsInstructions : Obligations.StateWrittenOnlyByItsInstructions := by
  intro i s t h
  have frame := exec_frame h
  exact ⟨fun hi => writers_i (mem_of_changed frame.i hi),
    fun hdt => writers_dt (mem_of_changed frame.dt hdt),
    fun hst => writers_st (mem_of_changed frame.st hst),
    fun hstack => writers_stack (mem_of_changed frame.stack hstack),
    fun a ha => writers_bytes (mem_of_changed (frame.bytes · a) ha),
    fun r c hrc => writers_screen (mem_of_changed (frame.screen · r c) hrc),
    fun hdraws => writers_draws (mem_of_changed frame.draws hdraws),
    frame.key key_not_written, frame.cfg⟩

/-! ## The registers an instruction writes (10_state.md R13) -/

theorem exec_V_of_not_writesV {i : Instr} {s t : State} {j : Reg} (h : exec i s = .next t) (hj : ¬ i.writesV j) :
    t.V j = s.V j := by
  cases i with
  | ldVxKk x _ | addVxKk x _ | ldVxVy x _ | orVxVy x _ | andVxVy x _ | xorVxVy x _ | rndVxKk x _ | ldVxDt x =>
    cases h
    exact (State.setV_V s x _ j).trans (if_neg hj)
  | addVxVy x _ | subVxVy x _ | subnVxVy x _ =>
    obtain ⟨hx, hf⟩ := not_or.1 hj
    cases h
    exact (State.writeResultThenFlag_V s x _ _ j).trans ((if_neg hf).trans (if_neg hx))
  | shrVxVy x _ | shlVxVy x _ =>
    obtain ⟨hx, hf⟩ := not_or.1 hj
    cases h
    exact (State.writeFlagThenResult_V s x _ _ j).trans ((if_neg hx).trans (if_neg hf))
  | drwVxVyN x y n =>
    rcases withDataAccess_cases h with ⟨-, rfl⟩ | ⟨-, rfl⟩
    · rfl
    · exact (withCanvas_writes_only s _).1 j hj
  | ldVxMem x =>
    rcases withDataAccess_cases h with ⟨-, rfl⟩ | ⟨-, rfl⟩
    · rfl
    · exact (setRegs_regsFrom_V s x _ j).trans (if_neg hj)
  | _ => exact (exec_frame h).regs (by simp) j

/-- Settles O45: an instruction that writes no register has none in its frame; each other one, by what it writes. -/
theorem registersWrittenOnlyByTable : Obligations.RegistersWrittenOnlyByTable :=
  fun _ _ _ _ => exec_V_of_not_writesV

/-! ## The parts no instruction reads: `ST` (R20) and `KEY` (R24) -/

/-- The state with other values in the two parts no instruction reads. -/
def Machine.State.withUnread (s : State) (st : Byte) (key : Vector Bool 16) : State := { s with st := st, key := key }

theorem setKey_eq_withUnread (s : State) (k : Fin 16) (b : Bool) :
    s.setKey k b = s.withUnread s.st (s.key.set k b) := rfl

theorem setSt_eq_withUnread (s : State) (b : Byte) : s.setSt b = s.withUnread b s.key := rfl

theorem skipIf_withUnread (s : State) (c : Bool) (st : Byte) (key : Vector Bool 16) :
    (s.withUnread st key).skipIf c = (s.skipIf c).withUnread st key := by
  cases c <;> rfl

theorem withDataAccess_withUnread {n : Nat} {s whole t : State} (h : withDataAccess n s whole = .next t) (st : Byte)
    (key : Vector Bool 16) :
    withDataAccess n (s.withUnread st key) (whole.withUnread st key) = .next (t.withUnread st key) := by
  rcases withDataAccess_cases h with ⟨hb, rfl⟩ | ⟨hb, rfl⟩
  · exact withDataAccess_of_out hb
  · exact withDataAccess_of_in hb

/-- An instruction does the same whatever the unread parts hold: it leaves them, or sets `ST` to a value that does not
depend on them (Fx18). -/
theorem exec_withUnread {i : Instr} {s t : State} (h : exec i s = .next t) (st : Byte) (key : Vector Bool 16) :
    ∃ c, exec i (s.withUnread st key) = .next (t.withUnread c key) ∧ (c = t.st ∨ c = st ∧ t.st = s.st) := by
  by_cases hi : ∃ x, i = .ldStVx x
  · obtain ⟨x, rfl⟩ := hi
    cases h
    exact ⟨s.V x, rfl, .inl rfl⟩
  refine ⟨st, ?_, .inr ⟨rfl, (exec_frame h).st fun hst => hi (writers_st hst)⟩⟩
  cases i with
  | ret =>
    cases hs : s.stack with
    | nil => rw [exec_ret_empty hs] at h; cases h; exact exec_ret_empty hs
    | cons a rest => rw [exec_ret_cons hs] at h; cases h; exact exec_ret_cons hs
  | seVxKk x _ | sneVxKk x _ | seVxVy x _ =>
    cases h
    exact congrArg Host.Outcome.next (skipIf_withUnread s _ st key)
  | drwVxVyN x y n | ldBVx x | ldMemVx x | ldVxMem x => exact withDataAccess_withUnread h st key
  | ldStVx x => exact absurd ⟨x, rfl⟩ hi
  | _ => cases h; rfl

/-- A step does the same whatever the unread parts hold. -/
theorem step_withUnread {s t : State} (h : step s = .next t) (st : Byte) (key : Vector Bool 16) :
    ∃ c, step (s.withUnread st key) = .next (t.withUnread c key) ∧ (c = t.st ∨ c = st ∧ t.st = s.st) ∧
      t.key = s.key := by
  rcases step_cases h with ⟨hs, rfl⟩ | ⟨hs, hf, rfl⟩ | ⟨w, e, hs, hf, hd, rfl⟩ | ⟨w, i, hs, hf, hd, he⟩
  · exact ⟨st, step_of_not_running hs, .inr ⟨rfl, rfl⟩, rfl⟩
  · exact ⟨st, step_of_fetch_none hs hf, .inr ⟨rfl, rfl⟩, rfl⟩
  · exact ⟨st, step_of_error hs hf hd, .inr ⟨rfl, rfl⟩, rfl⟩
  · obtain ⟨c, hc, hst⟩ := exec_withUnread he st key
    exact ⟨c, (step_of_decode (s := s.withUnread st key) hs hf hd).trans hc, hst, (exec_frame he).key key_not_written⟩

/-- Settles O47: with the machine's own `ST` in its place, the step leaves the `ST` it would have left. -/
theorem keypadIsNeverRead : Obligations.KeypadIsNeverRead := by
  intro s t k b h
  obtain ⟨c, hc, hst, hkey⟩ := step_withUnread h s.st (s.key.set k b)
  have hct : c = t.st := hst.elim id fun ⟨hcs, hts⟩ => hcs.trans hts.symm
  rw [setKey_eq_withUnread, setKey_eq_withUnread, hc, hct, hkey]

/-- Settles O48: the keypad is left as it was. -/
theorem soundTimerIsNeverRead : Obligations.SoundTimerIsNeverRead := by
  intro s t b h
  obtain ⟨c, hc, -, hkey⟩ := step_withUnread h b s.key
  refine ⟨c, ?_⟩
  rw [setSt_eq_withUnread, setSt_eq_withUnread, hc, hkey]

end Sys2Proof
end

section
/-! Where an instruction leaves `PC` and the stack (40_control_flow.md R80 to R87), and the invariant that every step
and every schedule keeps (10_state.md R19, 60_exceptions.md R146, log 7). -/

namespace Sys2Proof

open Machine

/-! ## What an instruction can do to `PC` and the stack -/

/-- An instruction other than RET, JP, CALL and the skips leaves both. -/
theorem exec_control_cases {i : Instr} {s t : State} (h : exec i s = .next t) :
    ((t.pc = s.pc ∨ t.pc = s.pc + 2) ∧ t.stack = s.stack) ∨
    (∃ nnn, i = .jpAddr nnn ∧ t.pc = zextAddr nnn ∧ t.stack = s.stack) ∨
    (∃ nnn, i = .callAddr nnn ∧ t.pc = zextAddr nnn ∧ t.stack = s.pc :: s.stack) ∨
    (i = .ret ∧ s.stack = t.pc :: t.stack) := by
  cases i with
  | ret =>
    cases hs : s.stack with
    | nil => rw [exec_ret_empty hs] at h; cases h; exact .inl ⟨.inl rfl, hs⟩
    | cons a rest => rw [exec_ret_cons hs] at h; cases h; exact .inr (.inr (.inr ⟨rfl, rfl⟩))
  | jpAddr nnn => cases h; exact .inr (.inl ⟨nnn, rfl, rfl, rfl⟩)
  | callAddr nnn => cases h; exact .inr (.inr (.inl ⟨nnn, rfl, rfl, rfl⟩))
  | seVxKk x _ | sneVxKk x _ | seVxVy x _ =>
    cases h
    refine .inl ⟨?_, State.skipIf_stack s _⟩
    rw [State.skipIf_pc]
    exact (ite_eq_or_eq _ _ _).symm
  | _ => exact .inl ⟨.inl ((exec_frame h).pc (by simp)), (exec_frame h).stack (by simp)⟩

/-- Settles O19: the CALL pushes `s.pc`, which the RET finds on top. -/
theorem callThenRetReturns : Obligations.CallThenRetReturns := by
  intro nnn s t u h hu
  cases h
  exact ⟨_, exec_ret_cons hu, rfl, rfl⟩

/-- The `nnn` of a fetched JP or CALL, whose words have format `NNN`, is the low 12 bits of its word. -/
theorem zextAddr_of_decode {w : Word} {i : Instr} {op : BitVec 4} {nnn : Addr} (hd : decode w = .ok i)
    (hi : encode i = packNNN op nnn) : (zextAddr nnn).toNat = w.toNat % 4096 := by
  rw [zextAddr_toNat, ← encode_of_decode hd, hi, ← fieldNNN_toNat, fieldNNN_packNNN]

/-- Settles O20: a step that leaves the machine running has executed its instruction, at `PC = npc`. -/
theorem controlTransferIsOneOfFour : Obligations.ControlTransferIsOneOfFour := by
  intro s t hs h ht
  rcases step_cases h with ⟨hns, rfl⟩ | ⟨-, -, rfl⟩ | ⟨w, e, -, -, -, rfl⟩ | ⟨w, i, -, hf, hd, he⟩
  · exact absurd hs hns
  · cases ht
  · cases ht
  · rcases exec_control_cases he with ⟨hpc | hpc, hst⟩ | ⟨nnn, rfl, hpc, hst⟩ | ⟨nnn, rfl, hpc, hst⟩ | ⟨-, hst⟩
    · exact ⟨.inl hpc, .inl hst⟩
    · exact ⟨.inr (.inl hpc), .inl hst⟩
    · exact ⟨.inr (.inr (.inl ⟨w, hf, hpc ▸ zextAddr_of_decode hd rfl⟩)), .inl hst⟩
    · exact ⟨.inr (.inr (.inl ⟨w, hf, hpc ▸ zextAddr_of_decode hd rfl⟩)), .inr (.inl hst)⟩
    · exact ⟨.inr (.inr (.inr ⟨t.stack, hst⟩)), .inr (.inr ⟨t.pc, hst⟩)⟩

/-! ## The invariant under a step -/

theorem Inv.setStatus {s : State} (h : Inv s) {c : Cause} (hc : c ≠ .registerIndexOverflow) (a w : Word) :
    Inv (s.setStatus (.faulted c a w)) where
  pc_le := h.pc_le
  stack_le := h.stack_le
  mem_wf := h.mem_wf
  cause_ne _ _ he := hc (Status.faulted.inj he).1

theorem pc_lt_of_fetch {s : State} {w : Word} (hf : s.fetch = some w) : s.pc.toNat < 0xFFF := by
  by_contra hge
  rw [s.fetch_eq_none_iff.2 (Nat.not_lt.1 hge)] at hf
  cases hf

/-- A fetch that succeeds leaves `npc <= 0x1000`. -/
theorem advance_pc_le {s : State} {w : Word} (hf : s.fetch = some w) : s.advance.pc.toNat ≤ 0x1000 := by
  have hlt := pc_lt_of_fetch hf
  rw [State.advance_pc_toNat hlt]
  omega

theorem Inv.advance {s : State} (h : Inv s) {w : Word} (hf : s.fetch = some w) : Inv s.advance where
  pc_le := (advance_pc_le hf).trans (by decide)
  stack_le := h.stack_le
  mem_wf := h.mem_wf
  cause_ne := h.cause_ne

theorem add_two_le {a : Word} (ha : a.toNat ≤ 0x1000) : (a + 2).toNat ≤ 0x1002 := by
  rw [BitVec.toNat_add, show (2 : Word).toNat = 2 from rfl]
  omega

theorem zextAddr_le (nnn : Addr) : (zextAddr nnn).toNat ≤ 0x1002 := by
  have hn := nnn.isLt
  rw [zextAddr_toNat]
  omega

/-- The execute stage keeps the ranges of R19: what it pushes is `npc`, what it pops was pushed. -/
theorem exec_control_le {i : Instr} {s t : State} (h : exec i s = .next t) (hpc : s.pc.toNat ≤ 0x1000)
    (hst : ∀ a ∈ s.stack, a.toNat ≤ 0x1000) : t.pc.toNat ≤ 0x1002 ∧ ∀ a ∈ t.stack, a.toNat ≤ 0x1000 := by
  rcases exec_control_cases h with
    ⟨ht | ht, hts⟩ | ⟨nnn, -, ht, hts⟩ | ⟨nnn, -, ht, hts⟩ | ⟨-, hs⟩
  · rw [ht, hts]
    exact ⟨hpc.trans (by decide), hst⟩
  · rw [ht, hts]
    exact ⟨add_two_le hpc, hst⟩
  · rw [ht, hts]
    exact ⟨zextAddr_le nnn, hst⟩
  · rw [ht, hts]
    exact ⟨zextAddr_le nnn, List.forall_mem_cons.2 ⟨hpc, hst⟩⟩
  · obtain ⟨htop, hrest⟩ := List.forall_mem_cons.1 (hs ▸ hst)
    exact ⟨htop.trans (by decide), hrest⟩

/-- No instruction raises cause 4 (60_exceptions.md R146). -/
theorem exec_cause_ne {i : Instr} {s t : State} (h : exec i s = .next t)
    (hs : ∀ a w, s.status ≠ .faulted .registerIndexOverflow a w) (a w : Word) :
    t.status ≠ .faulted .registerIndexOverflow a w := by
  rcases exec_cases h with ⟨-, hst, -⟩ | ⟨-, -, rfl⟩ | ⟨-, rfl⟩
  · exact hst ▸ hs a w
  · exact nofun
  · exact nofun

theorem Inv.exec {i : Instr} {s t : State} (hi : Inv s) (hpc : s.pc.toNat ≤ 0x1000) (h : exec i s = .next t) :
    Inv t := by
  obtain ⟨hpc', hst'⟩ := exec_control_le h hpc hi.stack_le
  exact ⟨hpc', hst', exec_mem_wf h hi.mem_wf, exec_cause_ne h hi.cause_ne⟩

theorem Inv.step {s t : State} (hi : Inv s) (h : step s = .next t) : Inv t := by
  rcases step_cases h with ⟨-, rfl⟩ | ⟨-, -, rfl⟩ | ⟨w, e, -, hf, -, rfl⟩ | ⟨w, i, -, hf, -, he⟩
  · exact hi
  · exact hi.setStatus (by decide) _ _
  · exact (hi.advance hf).setStatus (by decide) _ _
  · exact (hi.advance hf).exec (advance_pc_le hf) he

/-- Settles O49: the step advances `PC` to at most 0x1000, and from there the execute stage keeps the invariant. -/
theorem stepKeepsInvariant : Obligations.StepKeepsInvariant := fun _ _ hi h => hi.step h

/-! ## The invariant under the other agents -/

theorem inv_resetWith (c : Config) (draws : Nat) : Inv (State.resetWith c draws) where
  pc_le := by simp [State.resetWith]
  stack_le := nofun
  mem_wf := Memory.wf_nil c
  cause_ne := nofun

/-- Settles O50: the reset state has `PC` 0x0200, no return address, no listed cell, and runs. -/
theorem resetHasInvariant : Obligations.ResetHasInvariant := inv_resetWith _ _

theorem Inv.setDt {s : State} (h : Inv s) (b : Byte) : Inv (s.setDt b) :=
  ⟨h.pc_le, h.stack_le, h.mem_wf, h.cause_ne⟩

theorem Inv.setSt {s : State} (h : Inv s) (b : Byte) : Inv (s.setSt b) :=
  ⟨h.pc_le, h.stack_le, h.mem_wf, h.cause_ne⟩

theorem Inv.setKey {s : State} (h : Inv s) (k : Fin 16) (b : Bool) : Inv (s.setKey k b) :=
  ⟨h.pc_le, h.stack_le, h.mem_wf, h.cause_ne⟩

/-- A guarded action does nothing to a machine that is not running (R151). -/
theorem ifRunning_of_not_running {s : State} (h : ¬ Running s) (t : State) : s.ifRunning t = s := by
  cases hs : s.status with
  | running => exact absurd hs h
  | faulted c a w => exact State.ifRunning_of_faulted hs

theorem Inv.ifRunning {s t : State} (hs : Inv s) (ht : Inv t) : Inv (s.ifRunning t) := by
  by_cases h : Running s
  · rwa [State.ifRunning_of_running h]
  · rwa [ifRunning_of_not_running h]

/-- An image that `load` accepts ends inside memory, so the canonical form is kept. -/
theorem Inv.load {s : State} (h : Inv s) (bytes : List Byte) : Inv (s.load bytes) := by
  rcases Nat.lt_or_ge 3584 bytes.length with hgt | hle
  · rw [State.load_of_gt hgt]
    exact h.setStatus (by decide) _ _
  · rw [State.load_of_le hle]
    exact ⟨h.pc_le, h.stack_le, Memory.wf_pokeBytes h.mem_wf (by omega), h.cause_ne⟩

theorem Inv.act {m m' : System} {e : Event} (hi : Inv m.state) (h : m.act e = .next m') : Inv m'.state := by
  rcases System.act_cases h with
    ⟨-, rfl⟩ | ⟨bytes, -, -, -, rfl⟩ | ⟨t, -, ht, rfl⟩ | ⟨-, rfl⟩ | ⟨b, -, rfl⟩ | ⟨b, -, rfl⟩ | ⟨k, b, -, rfl⟩
  · exact inv_resetWith _ _
  · exact hi.load bytes
  · exact hi.step ht
  · exact hi.ifRunning ((hi.setDt _).setSt _)
  · exact hi.ifRunning (hi.setDt b)
  · exact hi.ifRunning (hi.setSt b)
  · exact hi.ifRunning (hi.setKey k b)

theorem Inv.run {m m' : System} {es : List Event} (hi : Inv m.state) (h : m.run es = .next m') : Inv m'.state :=
  System.run_keeps (P := fun m => Inv m.state) (fun _ _ _ hm ha => hm.act ha) hi h

/-- Settles O51: by induction over the schedule, each action keeps the invariant. -/
theorem scheduleKeepsInvariant : Obligations.ScheduleKeepsInvariant := fun _ _ _ hi h => hi.run h

/-- Settles O52: a machine at boot has the invariant, and its ranges are two of the invariant's clauses. -/
theorem reachablePcIsInRange : Obligations.ReachablePcIsInRange := by
  intro m es h
  have hboot : Inv System.boot.state := resetHasInvariant
  have hi : Inv m.state := hboot.run h
  exact ⟨hi.pc_le, hi.stack_le⟩

end Sys2Proof
end

section
/-! Faults (60_exceptions.md R140 to R151): the fetch, precision, data accesses, and the faulted machine. -/

namespace Sys2Proof

open Machine

/-! ## The fetch (20_memory.md R46, 60_exceptions.md R145) -/

theorem wordOfBytes_toNat (hi lo : Byte) : (wordOfBytes hi lo).toNat = hi.toNat * 256 + lo.toNat := by
  rw [wordOfBytes, BitVec.toNat_append, ← Nat.shiftLeft_add_eq_or_of_lt lo.isLt, Nat.shiftLeft_eq]

/-- Settles O9: `PC` decides whether there is a word to fetch; a fetch fault writes `STATUS` only. -/
theorem fetchReadsBigEndianOrFaults : Obligations.FetchReadsBigEndianOrFaults := by
  intro s
  constructor
  · intro hs hpc
    exact ⟨_, _, step_of_fetch_none hs (s.fetch_eq_none_iff.2 hpc), rfl, lowestOutOfBounds_toNat s.pc,
      (SameBut.refl _ s).setStatus (by decide) _⟩
  · intro hpc
    exact ⟨_, State.fetch_of_lt hpc, wordOfBytes_toNat _ _⟩

/-! ## Faults are precise (R149) -/

/-- A fault after a fetch that succeeded, as the step engine takes it: at `a`, with `PC` at `a + 2`. -/
theorem precise_after_advance {s : State} {w : Word} (hf : s.fetch = some w) {c : Cause} (hc : StepCause c)
    (info : Word) {t : State} (ht : t = s.advance.setStatus (.faulted c (s.advance.pc - 2) info)) :
    SameBut [.pc, .status] s t ∧ (t.pc = if 0xFFF ≤ s.pc.toNat then s.pc else s.pc + 2) ∧
      ∃ c info, t.status = .faulted c s.pc info ∧ StepCause c := by
  rw [advance_pc_sub] at ht
  subst ht
  refine ⟨((SameBut.refl _ s).advance (by decide)).setStatus (by decide) _, ?_, c, info, rfl, hc⟩
  rw [if_neg (pc_lt_of_fetch hf).not_ge]
  rfl

/-- Settles O12: the step faults in the fetch, on the word, or in the execute stage; there RET or a data access. -/
theorem faultsArePrecise : Obligations.FaultsArePrecise := by
  intro s t hs h ht
  rcases step_cases h with ⟨hns, rfl⟩ | ⟨-, hf, rfl⟩ | ⟨w, e, -, hf, -, rfl⟩ | ⟨w, i, -, hf, -, he⟩
  · exact absurd hs hns
  · refine ⟨(SameBut.refl _ s).setStatus (by decide) _, ?_, _, _, rfl, .inr (.inr rfl)⟩
    rw [if_pos (s.fetch_eq_none_iff.1 hf)]
    rfl
  · exact precise_after_advance hf (.inl rfl) w (by rw [advance_pc_sub])
  · rcases exec_cases he with ⟨-, hst, -⟩ | ⟨-, -, hret⟩ | ⟨-, hdata⟩
    · exact absurd (hst.trans hs) ht
    · exact precise_after_advance hf (.inr (.inl rfl)) _ hret
    · exact precise_after_advance hf (.inr (.inr rfl)) _ hdata

/-! ## Data accesses (R144) -/

/-- Settles O13: an access out of bounds takes the fault, and an instruction that completes, or a RET that underflows,
does not leave that cause. -/
theorem dataAccessFaultsExactlyOutOfBounds : Obligations.DataAccessFaultsExactlyOutOfBounds := by
  intro i s hs
  refine ⟨takesDataFault_of_dataOutOfBounds, fun t a info h ht => ?_⟩
  rcases exec_cases h with ⟨-, hst, -⟩ | ⟨-, -, rfl⟩ | ⟨hb, -⟩
  · cases ht.symm.trans (hst.trans hs)
  · cases ht
  · exact hb

/-! ## The faulted machine (R151) -/

theorem tick_eq_ifRunning (s : State) :
    s.tick = s.ifRunning ((s.setDt (countDown s.dt)).setSt (countDown s.st)) := rfl

theorem tick_of_not_running {s : State} (h : ¬ Running s) : s.tick = s :=
  (tick_eq_ifRunning s).trans (ifRunning_of_not_running h _)

/-- An action other than `reset` leaves a faulted machine as it is; a `load` is not accepted there. -/
theorem act_of_not_running {m m' : System} {e : Event} (hm : ¬ Running m.state) (h : m.act e = .next m')
    (he : e ≠ .reset) : m'.state = m.state := by
  rcases System.act_cases h with
    ⟨hreset, -⟩ | ⟨bytes, -, -, hs, -⟩ | ⟨t, -, ht, rfl⟩ | ⟨-, rfl⟩ | ⟨b, -, rfl⟩ | ⟨b, -, rfl⟩ | ⟨k, b, -, rfl⟩
  · exact absurd hreset he
  · exact absurd hs hm
  · rw [step_of_not_running hm] at ht
    cases ht
    rfl
  · exact tick_of_not_running hm
  · exact ifRunning_of_not_running hm _
  · exact ifRunning_of_not_running hm _
  · exact ifRunning_of_not_running hm _

/-- Settles O11: every action but `reset` is guarded by `STATUS`. -/
theorem faultedMachineIsFrozen : Obligations.FaultedMachineIsFrozen := fun _ hm =>
  ⟨step_of_not_running hm, tick_of_not_running hm,
    fun _ => ⟨ifRunning_of_not_running hm _, ifRunning_of_not_running hm _⟩,
    fun _ _ => ifRunning_of_not_running hm _,
    fun _ _ h he => act_of_not_running hm h he,
    _, rfl, rfl⟩

end Sys2Proof
end

section
/-! The shifts, the forms with `x = y`, RND (41_arith_logic.md R99, R101, R102, R104), ADD I,Vx (42_index_memory.md
R112), what a block store leaves for a later read (R115, 20_memory.md R54), and DRW of no rows (43_display.md R125). -/

namespace Sys2Proof

open Machine

/-! ## Flags of one bit as numbers -/

theorem flagByte_of_iff {b : Bool} {P : Prop} [Decidable P] (h : b = true ↔ P) : flagByte b = if P then 1 else 0 := by
  simp only [flagByte, h]

theorem getLsbD_zero_iff (v : Byte) : v.getLsbD 0 = true ↔ v.toNat % 2 = 1 := by
  rw [BitVec.getLsbD, Nat.testBit_zero, decide_eq_true_iff]

theorem getLsbD_seven_iff (v : Byte) : v.getLsbD 7 = true ↔ 128 ≤ v.toNat := by
  rw [← BitVec.msb_eq_getLsbD_last v, BitVec.msb_eq_decide, decide_eq_true_iff]

/-! ## Two writes of registers, read back -/

section Pairs

variable (s : State) {x : Reg} (r f : Byte)

theorem resultThenFlag_VF : (s.writeResultThenFlag x r f).V VF = f := by
  rw [State.writeResultThenFlag_V, if_pos rfl]

theorem resultThenFlag_V_self (hx : x ≠ VF) : (s.writeResultThenFlag x r f).V x = r := by
  rw [State.writeResultThenFlag_V, if_neg hx, if_pos rfl]

theorem flagThenResult_V_self : (s.writeFlagThenResult x f r).V x = r := by
  rw [State.writeFlagThenResult_V, if_pos rfl]

theorem flagThenResult_VF (hx : x ≠ VF) : (s.writeFlagThenResult x f r).V VF = f := by
  rw [State.writeFlagThenResult_V, if_neg hx.symm, if_pos rfl]

end Pairs

/-! ## SHR and SHL (R99, R101) -/

theorem exec_shrVxVy (x y : Reg) (s : State) :
    exec (.shrVxVy x y) s = .next
      (s.writeFlagThenResult x (lowBitFlag (s.V y)) (BitVec.ofNat 8 ((s.V y).toNat / 2))) := rfl

theorem exec_shlVxVy (x y : Reg) (s : State) :
    exec (.shlVxVy x y) s = .next
      (s.writeFlagThenResult x (highBitFlag (s.V y)) (BitVec.ofNat 8 ((s.V y).toNat * 2))) := rfl

/-- A halved byte is stored whole. -/
theorem toNat_ofNat_half (v : Byte) : (BitVec.ofNat 8 (v.toNat / 2)).toNat = v.toNat / 2 :=
  toNat_ofNat_of_le_byte v (Nat.div_le_self _ _)

/-- An instruction that writes a flag and then a result: the result always stands, the flag unless `x` is 15. -/
theorem exec_flag_then_result {i : Instr} {s : State} {x : Reg} {f r g : Byte} {n : Nat}
    (he : exec i s = .next (s.writeFlagThenResult x f r)) (hr : r.toNat = n) (hf : f = g) :
    ∃ t, exec i s = .next t ∧ (t.V x).toNat = n ∧ (x ≠ VF → t.V VF = g) ∧
      (∀ j, j ≠ x → j ≠ VF → t.V j = s.V j) ∧ SameBut [.regs] s t := by
  refine ⟨_, he, ?_, fun hx => ?_, fun j hjx hjf => ?_,
    ((SameBut.refl _ s).setV (by decide) VF f).setV (by decide) x r⟩
  · rw [flagThenResult_V_self, hr]
  · rw [flagThenResult_VF s r f hx, hf]
  · rw [State.writeFlagThenResult_V, if_neg hjx, if_neg hjf]

/-- Settles O25: both forms write the bit shifted out and then the shifted `V[y]`. -/
theorem shiftsWriteBitThenResult : Obligations.ShiftsWriteBitThenResult := fun s x y =>
  ⟨exec_flag_then_result (exec_shrVxVy x y s) (toNat_ofNat_half _) (flagByte_of_iff (getLsbD_zero_iff _)),
    exec_flag_then_result (exec_shlVxVy x y s) (BitVec.toNat_ofNat _ _) (flagByte_of_iff (getLsbD_seven_iff _))⟩

/-! ## The same register as source and destination (R104) -/

/-- Writing to a register the value it holds changes no register. -/
theorem setV_V_of_eq {s : State} {x : Reg} {b : Byte} (hb : b = s.V x) (j : Reg) : (s.setV x b).V j = s.V j := by
  rw [State.setV_V]
  split
  case isTrue hj => rw [hb, hj]
  case isFalse => rfl

/-- The carry of a doubling is the top bit. -/
theorem carryFlag_self (v : Byte) : carryFlag v v = highBitFlag v := by
  refine congrArg flagByte (Bool.eq_iff_iff.2 ?_)
  rw [getLsbD_seven_iff, decide_eq_true_iff]
  omega

theorem notBorrowFlag_self (v : Byte) : notBorrowFlag v v = 1 := by
  simp [notBorrowFlag, flagByte]

theorem toNat_ofNat_double (v : Byte) : (BitVec.ofNat 8 (v.toNat + v.toNat)).toNat = 2 * v.toNat % 256 := by
  rw [BitVec.toNat_ofNat, ← Nat.two_mul]

/-- Settles O26: with equal operands the result and the flag of each form are those of one register. -/
theorem sameRegisterForms : Obligations.SameRegisterForms := by
  intro s x hx
  refine ⟨?_, ?_, ?_, ?_, ?_, ?_, ?_, ?_, ?_⟩ <;> intro t h <;> cases h
  · exact setV_V_of_eq rfl
  · exact setV_V_of_eq BitVec.or_self
  · exact setV_V_of_eq BitVec.and_self
  · rw [setV_V_same, BitVec.xor_self]
    rfl
  · rw [resultThenFlag_V_self s _ _ hx, resultThenFlag_VF, carryFlag_self]
    exact ⟨toNat_ofNat_double _, rfl⟩
  · rw [resultThenFlag_V_self s _ _ hx, resultThenFlag_VF, notBorrowFlag_self]
    exact ⟨BitVec.sub_self _, rfl⟩
  · rw [resultThenFlag_V_self s _ _ hx, resultThenFlag_VF, notBorrowFlag_self]
    exact ⟨BitVec.sub_self _, rfl⟩
  · rw [flagThenResult_V_self, flagThenResult_VF s _ _ hx]
    exact ⟨toNat_ofNat_half _, rfl⟩
  · rw [flagThenResult_V_self, flagThenResult_VF s _ _ hx, Nat.mul_two]
    exact ⟨toNat_ofNat_double _, rfl⟩

/-! ## RND (R102) -/

theorem exec_rndVxKk (x : Reg) (kk : Byte) (s : State) :
    exec (.rndVxKk x kk) s = .next ((s.setV x (s.drawByte &&& kk)).setDraws (s.draws + 1)) := rfl

/-- No bit outside a mask survives it. -/
theorem and_mask_and_not (b kk : Byte) : b &&& kk &&& ~~~kk = 0 := by
  rw [BitVec.and_assoc, BitVec.and_not_self]
  exact BitVec.and_zero

/-- Settles O27: one register write, of the draw under the mask, and one of the counter. -/
theorem randomByteIsMaskedDraw : Obligations.RandomByteIsMaskedDraw := by
  intro s x kk
  have hV : ((s.setV x (s.drawByte &&& kk)).setDraws (s.draws + 1)).V x = Config.drawByte s.draws &&& kk :=
    setV_V_same s x _
  refine ⟨_, exec_rndVxKk x kk s, hV, ?_, fun hk => ?_, fun hk => ?_, rfl, (setV_writes_only s x _).1,
    ((SameBut.refl _ s).setV (by decide) x _).setDraws (by decide) _⟩
  · rw [hV, and_mask_and_not]
  · rw [hV, hk]
    exact BitVec.and_zero
  · rw [hV, hk]
    exact BitVec.and_allOnes

/-! ## ADD I,Vx (R112) -/

theorem exec_addIVx (x : Reg) (s : State) : exec (.addIVx x) s = .next (s.setI (s.i + zextByte (s.V x))) := rfl

theorem zextByte_toNat (b : Byte) : (zextByte b).toNat = b.toNat :=
  BitVec.toNat_setWidth_of_le (by decide)

/-- Settles O29: one write of `I`, of a 16-bit sum. -/
theorem indexAddIsSixteenBit : Obligations.IndexAddIsSixteenBit := by
  intro x s
  refine ⟨_, exec_addIVx x s, ?_, (SameBut.refl _ s).setI (by decide) _⟩
  rw [State.setI_i, BitVec.toNat_add, zextByte_toNat]

/-! ## After a block store (R114): the load and the fetch of its bytes -/

/-- A block store that leaves the machine running has stored its block inside memory. -/
theorem exec_ldMemVx_running {x : Reg} {s t : State} (h : exec (.ldMemVx x) s = .next t) (ht : Running t) :
    s.i.toNat + x.val < 4096 ∧ t = s.storeBytes s.i.toNat (s.regsUpTo x) := by
  rcases withDataAccess_cases h with ⟨-, rfl⟩ | ⟨hb, rfl⟩
  · cases ht
  · exact ⟨Nat.not_le.1 (mt (dataOutOfBounds_succ s x.val).2 hb), rfl⟩

/-- Settles O33: the bytes from `I` are the registers stored, and the load reads them in place. -/
theorem blockTransferRoundTrips : Obligations.BlockTransferRoundTrips := by
  intro s t u v x ht h hi hbytes hload j hj
  obtain ⟨hin, rfl⟩ := exec_ldMemVx_running h ht
  have hui : u.i = s.i := hi
  rw [exec_ldVxMem_of_in (hui ▸ hin)] at hload
  cases hload
  rw [setRegs_regsFrom_V, if_pos hj, hui, hbytes, storeBytes_regsUpTo_byteAt s _ hj]

/-- Settles O34: the first two bytes of the block stand at `PC` and `PC + 1`. -/
theorem storedInstructionIsFetchedNext : Obligations.StoredInstructionIsFetchedNext := by
  intro s t x ht hx hpc h
  obtain ⟨hin, rfl⟩ := exec_ldMemVx_running h ht
  have hstored (j : Reg) (hj : j ≤ x) :
      (s.storeBytes s.i.toNat (s.regsUpTo x)).byteAt (s.pc.toNat + j.val) = s.V j :=
    hpc ▸ storeBytes_regsUpTo_byteAt s s.i.toNat hj
  have hlt : s.pc.toNat < 0xFFF := by
    rw [← hpc]
    omega
  have h0 := hstored 0 (Nat.zero_le _)
  have h1 := hstored 1 hx
  calc (s.storeBytes s.i.toNat (s.regsUpTo x)).fetch
      = some (wordOfBytes ((s.storeBytes s.i.toNat (s.regsUpTo x)).byteAt s.pc.toNat)
          ((s.storeBytes s.i.toNat (s.regsUpTo x)).byteAt (s.pc.toNat + 1))) := State.fetch_of_lt hlt
    _ = some (wordOfBytes (s.V 0) (s.V 1)) := congrArg some (congrArg₂ wordOfBytes h0 h1)

/-! ## DRW of no rows (R125) -/

/-- The sprite of no rows leaves the canvas as it starts, in both modes. -/
theorem exec_drwVxVyN_zero (x y : Reg) (s : State) :
    exec (.drwVxVyN x y 0) s = .next (s.withCanvas ⟨s.fb, false⟩) :=
  withDataAccess_of_in (n := 0) (s := s) fun h => Nat.not_succ_le_zero 0 h.1

/-- Settles O38: the end of the draw puts back the framebuffer as it was and clears `VF`. -/
theorem drawOfNoRowsOnlyClearsFlag : Obligations.DrawOfNoRowsOnlyClearsFlag := fun s x y =>
  ⟨_, exec_drwVxVyN_zero x y s, withCanvas_VF s _, setV_writes_only s VF (flagByte false)⟩

end Sys2Proof
end

section
/-! The host: its writes, the snapshot, `load`, `reset` and its lifecycle (60_exceptions.md R158 to R161,
70_reset_and_hazards.md R180 to R183), and what every schedule does to the parameters and the draw counter (10_state.md
R11, log 3). -/

namespace Sys2Proof

open Machine

/-! ## Writes of a timer or a key (R159, R160) -/

theorem SameBut.setKey {l : List Part} {s t : State} (h : SameBut l s t) (hl : .key ∈ l) (k : Fin 16) (b : Bool) :
    SameBut l s (t.setKey k b) :=
  { h with key := absurd hl }

theorem writeDt_of_running {s : State} (hs : Running s) (b : Byte) : s.writeDt b = s.setDt b :=
  State.ifRunning_of_running hs

theorem writeSt_of_running {s : State} (hs : Running s) (b : Byte) : s.writeSt b = s.setSt b :=
  State.ifRunning_of_running hs

theorem writeKey_of_running {s : State} (hs : Running s) (k : Fin 16) (b : Bool) : s.writeKey k b = s.setKey k b :=
  State.ifRunning_of_running hs

theorem setKey_readKey (s : State) (k : Fin 16) (b : Bool) (j : Fin 16) :
    (s.setKey k b).readKey j = if j = k then b else s.readKey j := by
  simp [State.readKey, Vector.getElem_set, Fin.ext_iff, eq_comm]

/-! ## The gate and the snapshot (R158, R161) -/

theorem gate_iff (s : State) : s.gate = true ↔ s.st.toNat ≠ 0 := by
  rw [State.gate, bne_iff_ne]
  exact BitVec.toNat_ne_iff_ne.symm

/-- The rows of a grid of width `n`, one after another: cell `c` of row `r` is at `r * n + c`. -/
theorem getElem?_flatMap_toList {α : Type} {n : Nat} (rows : List (Vector α n)) (r : Nat) {c : Nat} (hc : c < n) :
    (rows.flatMap Vector.toList)[r * n + c]? = rows[r]?.map (·[c]) := by
  induction rows generalizing r with
  | nil => simp
  | cons row rows ih =>
    rw [List.flatMap_cons]
    cases r with
    | zero =>
      rw [List.getElem?_append_left (by simpa using hc)]
      simp [hc]
    | succ r =>
      rw [List.getElem?_append_right (by simp [Nat.succ_mul]; omega), List.getElem?_cons_succ, ← ih r]
      congr 1
      simp only [Vector.length_toList, Nat.succ_mul]
      omega

theorem length_snapshotFb (s : State) : s.snapshotFb.length = 2048 := by
  simp [State.snapshotFb, List.length_flatMap]

theorem getElem?_snapshotFb (s : State) (r : Fin 32) (c : Fin 64) :
    s.snapshotFb[r.val * 64 + c.val]? = some (Screen.cell s.fb r c) := by
  rw [State.snapshotFb, getElem?_flatMap_toList _ _ c.isLt]
  simp [Screen.cell]

/-- Settles O43: on a running machine each write is one write of the state; the snapshot is the rows in order. -/
theorem hostWritesAndSnapshot : Obligations.HostWritesAndSnapshot := by
  intro s
  refine ⟨fun hs => ⟨fun b => ?_, fun b => ?_, fun k b => ?_⟩, gate_iff s, length_snapshotFb s, getElem?_snapshotFb s⟩
  · rw [writeDt_of_running hs]
    exact ⟨rfl, (SameBut.refl _ s).setDt (by decide) b⟩
  · rw [writeSt_of_running hs]
    exact ⟨rfl, (SameBut.refl _ s).setSt (by decide) b⟩
  · rw [writeKey_of_running hs]
    refine ⟨?_, fun j hj => ?_, (SameBut.refl _ s).setKey (by decide) k b⟩
    · rw [setKey_readKey, if_pos rfl]
    · rw [setKey_readKey, if_neg hj]

/-! ## `load` (R147, R182) -/

/-- Settles O41: an image of at most 3584 bytes is one block of bytes stored, a longer one the fault. -/
theorem loadCopiesImageOrFaults : Obligations.LoadCopiesImageOrFaults := by
  intro s bytes
  constructor
  · intro hle
    rw [State.load_of_le hle]
    exact ⟨fun _ hk => storeBytes_byteAt_inside s _ bytes hk, fun _ ha => storeBytes_byteAt_outside s _ bytes ha,
      (SameBut.refl _ s).storeBytes (by decide) _ _⟩
  · intro hgt
    rw [State.load_of_gt hgt]
    refine ⟨_, rfl, ?_, (SameBut.refl _ s).setStatus (by decide) _⟩
    rw [BitVec.toNat_ofNat]
    omega

/-- No action but `reset` makes a machine fresh, and a step ends freshness (R183). -/
theorem fresh_after_act {m m' : System} {e : Event} (h : m.act e = .next m') (hfresh : m'.phase = .fresh) :
    e = .reset ∨ (m.phase = .fresh ∧ e ≠ .step) := by
  rcases System.act_cases h with
    ⟨rfl, -⟩ | ⟨bytes, -, -, -, rfl⟩ | ⟨t, -, -, rfl⟩ | ⟨rfl, rfl⟩ | ⟨b, rfl, rfl⟩ | ⟨b, rfl, rfl⟩ | ⟨k, b, rfl, rfl⟩
  · exact .inl rfl
  · cases hfresh
  · cases hfresh
  all_goals exact .inr ⟨hfresh, nofun⟩

theorem act_step_of_step {m : System} {t : State} (h : step m.state = .next t) :
    m.act .step = .next ⟨t, .started⟩ := by
  simp only [System.act, System.stepEvent, h]

theorem step_of_act_step {m m' : System} (h : m.act .step = .next m') :
    step m.state = .next m'.state ∧ m'.phase = .started := by
  obtain ⟨t, ht⟩ := step_total m.state
  rw [act_step_of_step ht] at h
  cases h
  exact ⟨ht, rfl⟩

/-- Settles O42: `load` is guarded by the phase and `STATUS`, and each action gives the phase it names. -/
theorem loadOnlyOnceBeforeFirstStep : Obligations.LoadOnlyOnceBeforeFirstStep :=
  ⟨rfl, fun _ bytes => ⟨fun h => System.act_load_accepted h bytes, fun h => System.act_load_refused h bytes,
    ⟨_, rfl, rfl, rfl⟩, fun _ _ => fresh_after_act, fun _ h => (step_of_act_step h).2⟩⟩

/-! ## Reset (10_state.md R28) -/

section Reset

variable (c : Config) (draws : Nat)

theorem resetWith_V (j : Reg) : (State.resetWith c draws).V j = 0 := by
  simp [State.resetWith, State.V]

theorem resetWith_readKey (k : Fin 16) : (State.resetWith c draws).readKey k = false := by
  simp [State.resetWith, State.readKey]

/-- With no cell listed, memory reads as its reset contents: the font, then the fill. -/
theorem resetWith_byteAt (a : Nat) : (State.resetWith c draws).byteAt a = unlistedByte c a := rfl

theorem unlistedByte_font {a : Nat} (h : a < 80) : unlistedByte c a = c.font[a] := dif_pos h

theorem unlistedByte_fill {a : Nat} (h : 80 ≤ a) : unlistedByte c a = c.memFill := dif_neg h.not_gt

end Reset

/-- The state after power-on and the state after any `reset` are reset states of some parameters and draw count. -/
theorem eq_resetWith {s : State} (h : s = State.reset ∨ ∃ m m' : System, m.act .reset = .next m' ∧ m'.state = s) :
    ∃ c draws, s = State.resetWith c draws := by
  rcases h with rfl | ⟨m, m', hact, rfl⟩
  · exact ⟨_, _, rfl⟩
  · cases hact
    exact ⟨_, _, rfl⟩

/-- Settles O44: each clause is a field of the reset state. -/
theorem resetGivesEveryValue : Obligations.ResetGivesEveryValue := by
  refine ⟨rfl, fun m => ⟨_, rfl⟩, fun s hs => ?_⟩
  obtain ⟨c, draws, rfl⟩ := eq_resetWith hs
  exact ⟨resetWith_V c draws, rfl, rfl, rfl, rfl, rfl,
    fun a h => (resetWith_byteAt c draws a).trans (unlistedByte_font c h),
    fun a h => (resetWith_byteAt c draws a).trans (unlistedByte_fill c h),
    Screen.cell_off, resetWith_readKey c draws, rfl, rfl⟩

/-! ## The parameters and the draw counter (10_state.md R11, log 1, log 3) -/

/-- What no action undoes: the parameters are the same, the draw counter is not smaller. -/
def DrawsFrom (s t : State) : Prop := t.cfg = s.cfg ∧ s.draws ≤ t.draws

theorem DrawsFrom.trans {s t u : State} (h : DrawsFrom s t) (h' : DrawsFrom t u) : DrawsFrom s u :=
  ⟨h'.1.trans h.1, h.2.trans h'.2⟩

theorem drawsFrom_of_frame {l : List Part} {s t : State} (h : SameBut l s t) (hl : .draws ∉ l) : DrawsFrom s t :=
  ⟨h.cfg, (h.draws hl).ge⟩

theorem drawsFrom_exec {i : Instr} {s t : State} (h : exec i s = .next t) : DrawsFrom s t := by
  by_cases hd : .draws ∈ .status :: i.writesParts
  · obtain ⟨x, kk, rfl⟩ := writers_draws hd
    cases h
    exact ⟨rfl, Nat.le_succ _⟩
  · exact drawsFrom_of_frame (exec_frame h) hd

theorem drawsFrom_step {s t : State} (h : step s = .next t) : DrawsFrom s t := by
  rcases step_cases h with ⟨-, rfl⟩ | ⟨-, -, rfl⟩ | ⟨w, e, -, -, -, rfl⟩ | ⟨w, i, -, -, -, he⟩
  · exact ⟨rfl, le_rfl⟩
  · exact ⟨rfl, le_rfl⟩
  · exact ⟨rfl, le_rfl⟩
  · exact drawsFrom_exec (s := s.advance) he

theorem SameBut.ifRunning {l : List Part} {s t : State} (h : SameBut l s t) : SameBut l s (s.ifRunning t) := by
  by_cases hs : Running s
  · rwa [State.ifRunning_of_running hs]
  · rw [ifRunning_of_not_running hs]
    exact SameBut.refl l s

theorem drawsFrom_load (s : State) (bytes : List Byte) : DrawsFrom s (s.load bytes) := by
  rcases Nat.lt_or_ge 3584 bytes.length with hgt | hle
  · rw [State.load_of_gt hgt]
    exact ⟨rfl, le_rfl⟩
  · rw [State.load_of_le hle]
    exact ⟨rfl, le_rfl⟩

theorem drawsFrom_act {m m' : System} {e : Event} (h : m.act e = .next m') : DrawsFrom m.state m'.state := by
  have same := SameBut.refl [.dt, .st, .key] m.state
  rcases System.act_cases h with
    ⟨-, rfl⟩ | ⟨bytes, -, -, -, rfl⟩ | ⟨t, -, ht, rfl⟩ | ⟨-, rfl⟩ | ⟨b, -, rfl⟩ | ⟨b, -, rfl⟩ | ⟨k, b, -, rfl⟩
  · exact ⟨rfl, le_rfl⟩
  · exact drawsFrom_load m.state bytes
  · exact drawsFrom_step ht
  · exact drawsFrom_of_frame ((same.setDt (by decide) _).setSt (by decide) _).ifRunning (by decide)
  · exact drawsFrom_of_frame (same.setDt (by decide) b).ifRunning (by decide)
  · exact drawsFrom_of_frame (same.setSt (by decide) b).ifRunning (by decide)
  · exact drawsFrom_of_frame (same.setKey (by decide) k b).ifRunning (by decide)

theorem drawsFrom_run {m m' : System} {es : List Event} (h : m.run es = .next m') : DrawsFrom m.state m'.state :=
  System.run_keeps (P := fun n => DrawsFrom m.state n.state) (fun _ _ _ hn ha => hn.trans (drawsFrom_act ha))
    ⟨rfl, le_rfl⟩ h

/-- Settles O53: no action lowers the counter, and RND raises it above the draw it takes. -/
theorem parametersFixedAndDrawsFresh : Obligations.ParametersFixedAndDrawsFresh := by
  refine ⟨fun _ _ _ => drawsFrom_run, fun m m' m'' es w x kk hs hf hd hact hrun => ?_⟩
  have hstep := (step_of_act_step hact).1
  rw [step_of_decode hs hf hd, exec_rndVxKk] at hstep
  have hm' := Host.Outcome.next.inj hstep
  have hdraws : m'.state.draws = m.state.draws + 1 := hm' ▸ rfl
  exact ⟨hm' ▸ setV_V_same m.state.advance x _, Nat.lt_of_succ_le (hdraws.ge.trans (drawsFrom_run hrun).2)⟩

/-! ## Schedules without `load` (log 4, log 6) -/

theorem act_total_of_not_load (m : System) {e : Event} (he : ∀ bytes, e ≠ .load bytes) :
    ∃ m', m.act e = .next m' := by
  cases e with
  | load bytes => exact absurd rfl (he bytes)
  | step =>
    obtain ⟨t, ht⟩ := step_total m.state
    exact ⟨_, act_step_of_step ht⟩
  | reset | tick | writeDt b | writeSt b | writeKey k b => exact ⟨_, rfl⟩

theorem run_cons_of_act {m m' : System} {e : Event} (h : m.act e = .next m') (es : List Event) :
    m.run (e :: es) = m'.run es := by
  simp only [System.run, h]

theorem run_total_of_no_load (m : System) {es : List Event} (h : ∀ bytes, .load bytes ∉ es) :
    ∃ m', m.run es = .next m' := by
  induction es generalizing m with
  | nil => exact ⟨m, rfl⟩
  | cons e es ih =>
    obtain ⟨m₁, h₁⟩ := act_total_of_not_load m (e := e) fun bytes he => h bytes (he ▸ List.mem_cons_self)
    rw [run_cons_of_act h₁]
    exact ih m₁ fun bytes hb => h bytes (List.mem_cons_of_mem e hb)

/-- Settles O54: by induction over the schedule, each action but `load` answers a machine. -/
theorem schedulesWithoutLoadRun : Obligations.SchedulesWithoutLoadRun := fun m _ => run_total_of_no_load m

end Sys2Proof
end
